-- ==== Sys2Proof/Word.lean ====
section
/-! DEFINITION. The widths of DIVINV256 (spec 00_scope.md rules R9, R11, R12): a limb is 64 bits, an `Integer256` four limbs,
the long-division scratch buffer five limbs, a register-space address 5 bits. All values are unsigned. -/

namespace Sys2Proof

/-- One limb: 64 bits (R9 `LIMB_BITS`). -/
abbrev Limb := BitVec 64

/-- One 256-bit value of four limbs, limb 0 least significant (R9 `WIDTH`, R12). -/
abbrev Word := BitVec 256

/-- The five-limb numerator scratch buffer `N[0..4]` (R9 `SCRATCH_LIMBS`). -/
abbrev Scratch := BitVec 320

/-- A limb address of the register space: 5 bits, 32 slots (R10 `ADDR_BITS`, 20_memory.md R50). -/
abbrev LimbAddr := BitVec 5

end Sys2Proof
end

