-- ==== Sys2Proof/Config.lean ====
section
/-! DEFINITION. What is fixed for the machine: the parameters of spec 00_scope.md rules R9 and R10, and the values the spec leaves
open, each an opaque constant with no body (93_implementation_defined.md U1, U2, U12). -/

namespace Sys2Proof.Config

/-- R9 `LIMB_BITS`: width of one limb. -/
def limbBits : Nat := 64

/-- R9 `NLIMBS`: limbs of an `Integer256`. -/
def nLimbs : Nat := 4

/-- R9 `WIDTH`: bits of an `Integer256`. -/
def width : Nat := 256

/-- R9 `SCRATCH_LIMBS`: limbs of the numerator scratch buffer. -/
def scratchLimbs : Nat := 5

/-- R9 `HENSEL_SEED_BITS`: low bits for which the seed is relied on to be exact (90_conflicts.md C5). -/
def henselSeedBits : Nat := 4

/-- R9 `HENSEL_STEPS`: four steps at 64 bits, one at 128, one at 256 (90_conflicts.md C1). -/
def henselSteps : Nat := 6

/-- R9 `HENSEL_WIDE_BITS`: width of the one intermediate step. -/
def henselWideBits : Nat := 128

/-- R10 `ADDR_BITS`: width of a register-space address. -/
def addrBits : Nat := 5

/-- R10 `DATA_BITS`: width of one host access. -/
def dataBits : Nat := 64

/-- R10 `OPCODE_BITS`: width of the opcode field. -/
def opcodeBits : Nat := 4

/-- R10 `NCOMMANDS`: the opcodes 0x1 to 0x8 are defined. -/
def nCommands : Nat := 8

/-- R10 `ERR_BITS`: width of `STATUS.ERR`. -/
def errBits : Nat := 2

/-- R10 `EUCLID_MAX_STEPS` (informational, R168): the largest number of loop iterations of the modular-inverse pipeline. -/
def euclidMaxSteps : Nat := 368

/-- How often the model unrolls the correction loop of R120: with a normalised divisor two corrections bring `rhat` to `2^64`, so the
loop has always ended by then (R126; DEDUCED, log 11). Safe: Laws/LongDivision.lean proves that the exit test holds. -/
def correctionFuel : Nat := 2

/-- How often the model unrolls the Euclid loop of R159: every two iterations halve a remainder below `2^256`, so the loop has always
ended by then (DEDUCED, log 11). Safe: Laws/ModularInverse.lean proves that the exit test holds. R168's bound decides nothing here. -/
def euclidFuel : Nat := 512

/-- U1, R94: what `div2by1 h l d` returns outside its precondition. A free value (log 10): nothing constrains it. -/
opaque div2by1Undef : Limb → Limb → Limb → Limb × Limb

/-- U2, U3, R220: the contents the `Reset` step leaves, one free limb per draw (log 2). Nothing constrains it. -/
opaque freeLimb : Nat → Limb

/-- U12, R10, R53: the OPEN parameter `PLATFORM_BASE`, the byte address of slot 0 on a platform bus (log 15). No rule reads it. -/
opaque platformBase : Nat

/-- U12, R10, R53: the OPEN byte-lane convention of a platform bus: which byte lane of a slot carries byte `i` of the limb, byte 0
being `v bits[7:0]` (log 15). Nothing constrains it and no rule reads it. -/
opaque byteLane : Fin 8 → Fin 8

end Sys2Proof.Config
end

