-- ==== Sys2Proof/Machine/Div2by1.lean ====
section
/-! DEFINITION. The two-word-by-one-word divide primitive `div2by1` (spec 40_primitive_div2by1.md R90 to R97): a stateless block,
not a command (30_encoding.md R80). -/

namespace Sys2Proof.Machine

/-- R92: the precondition, `d != 0` and `h < d`. -/
abbrev Div2by1Pre (h d : Limb) : Prop := d ≠ 0 ∧ h < d

/-- R91: `(quotient, remainder)` of `h*2^64 + l` by `d` under the precondition; outside it the uninterpreted
`Config.div2by1Undef` (R94, U1; log 10). It writes no flag and raises nothing (R95). -/
def div2by1 (h l d : Limb) : Limb × Limb :=
  if Div2by1Pre h d then
    (BitVec.ofNat 64 ((h.toNat * 2 ^ 64 + l.toNat) / d.toNat), BitVec.ofNat 64 ((h.toNat * 2 ^ 64 + l.toNat) % d.toNat))
  else Config.div2by1Undef h l d

end Sys2Proof.Machine
end

