-- ==== Sys2Proof/Syntax.lean ====
section
/-! DEFINITION. Syntax: the eight commands (spec 30_encoding.md R74, one constructor per row of opcode_table.json), the raw fields of
the one command format `CMD64` (R71), the names of the register map (20_memory.md R51), the host's moves (R55, R56, R77, R78,
70_reset_and_hazards.md R220) and whose move it is (10_state.md R45). -/

namespace Sys2Proof

/-- The eight commands of R74. No command has an operand field: the registers are implicit (R71). -/
inductive Instr where
  /-- opcode 0x1: 256-by-64 division with absent result on zero (R101) -/
  | divrem64
  /-- opcode 0x2: 256-by-256 division with absent result on zero (R111) -/
  | divrem256
  /-- opcode 0x3: ring inverse mod 2^256 (R141) -/
  | inv
  /-- opcode 0x4: modular inverse for a general modulus (R156) -/
  | invmod
  /-- opcode 0x5: operator `/`, abort on zero (R176) -/
  | div
  /-- opcode 0x6: operator `%`, abort on zero (R177) -/
  | rem
  /-- opcode 0x7: operator `/=`, abort on zero (R178) -/
  | diva
  /-- opcode 0x8: operator `%=`, abort on zero (R179) -/
  | rema
deriving DecidableEq, Repr

/-- The two fields of a command word in format `CMD64` (R71). -/
structure Cmd64 where
  /-- bits 3:0 -/
  opcode : BitVec 4
  /-- bits 63:4, 0 in every legal command word -/
  zero : BitVec 60
deriving DecidableEq, Repr

/-- Why a word written to `CMD` is no command: the two tests of R72 that fail. -/
inductive IllegalWord where
  /-- one of bits 63:4 is set -/
  | reservedBitsSet
  /-- bits 63:4 are 0 and the opcode is 0x0 or 0x9 to 0xF -/
  | undefinedOpcode
deriving DecidableEq, Repr

/-- The named slots of the register map (R51); the limb index counts from the least significant limb. -/
inductive Slot where
  | a (i : Fin 4)
  | b (i : Fin 4)
  | q (i : Fin 4)
  | r (i : Fin 4)
  | d
  | cmd
  | status
deriving DecidableEq, Repr

/-- One move of the host, in its program order. `read` and `write` are the accesses `MemRead(addr, 1)` and `MemWrite(addr, 1, v)`
(R55, R56); `wait` is the pseudo-instruction WAIT, which reads `STATUS` until `BUSY` is 0 (R78); `reset` is the line RESET (R77). -/
inductive HostMove where
  | read (addr : LimbAddr)
  | write (addr : LimbAddr) (v : Limb)
  | wait
  | reset
deriving DecidableEq, Repr

/-- Whose move it is (R19, R45): the host tries its current move, the unit takes `Complete`, or the platform asserts `Reset`
whatever the host's current access is doing (R60, R222). -/
inductive Turn where
  | host
  | unit
  | reset
deriving DecidableEq, Repr

end Sys2Proof
end

