-- ==== Sys2Proof/Machine/State.lean ====
section
/-! DEFINITION. The state of DIVINV256 as plain data (spec 10_state.md): the five data registers, STATUS, the in-flight record, the
hidden datapath registers, and the model's own inputs, outputs and supply of free values. There is no program counter (R28) and no
memory (R42, R50: the register space is a view of these registers, Machine/HostPort.lean). -/

namespace Sys2Proof.Machine

/-- `STATUS.ERR` (R31). -/
inductive ErrKind where
  /-- code 0 -/
  | none
  /-- code 1 -/
  | divisionByZero
  /-- code 2 -/
  | noInverseExists
  /-- code 3 -/
  | illegalCommand
deriving DecidableEq, Repr

/-- The four fields of STATUS (R27). Bits 63:5 hold no state (R33); the word is computed in Machine/Flags.lean. -/
structure Status where
  /-- bit 0, R29 -/
  busy : Bool
  /-- bit 1, R30 -/
  valid : Bool
  /-- bits 3:2, R31 -/
  err : ErrKind
  /-- bit 4, R32 -/
  abort : Bool
deriving DecidableEq, Repr

/-- The in-flight record (R35): the command and the values `A`, `B`, `D` had at issue. Dead while `BUSY = 0`. -/
structure InFlight where
  /-- `OP`, held as the decoded command -/
  op : Instr
  /-- `SA` -/
  sa : Word
  /-- `SB` -/
  sb : Word
  /-- `SD` -/
  sd : Limb
deriving DecidableEq, Repr

/-- The hidden registers of the long-division unit (R36). -/
structure DivScratch where
  /-- `N[0..4]`, the numerator buffer -/
  num : Scratch
  /-- `V[0..3]`, the normalised divisor -/
  divisor : Word
  /-- `s`, the shift count -/
  shift : BitVec 6
  /-- `n`, the effective width: 1 to 4, and 0 for a zero divisor (R112) -/
  width : Fin 5
deriving DecidableEq, Repr

/-- The hidden registers of the modular-inverse pipeline (R38). -/
structure Euclid where
  r0 : Word
  r1 : Word
  t0 : Word
  t1 : Word
  /-- parity of the number of iterations done (R158) -/
  kOdd : Bool
deriving DecidableEq, Repr

/-- The whole state. -/
structure State where
  /-- `A` (R21) -/
  a : Word
  /-- `B` (R22) -/
  b : Word
  /-- `D` (R23) -/
  d : Limb
  /-- `Q` (R24) -/
  q : Word
  /-- `R` (R25) -/
  r : Word
  /-- STATUS (R27) -/
  status : Status
  /-- `OP`, `SA`, `SB`, `SD` (R35) -/
  flight : InFlight
  /-- `N`, `V`, `s`, `n` (R36) -/
  scratch : DivScratch
  /-- the Hensel register `r` (R37), held zero-extended to 256 bits (log 18) -/
  hensel : Word
  /-- `r0`, `r1`, `t0`, `t1`, `k_odd` (R38) -/
  euclid : Euclid
  /-- MODEL'S OWN (log 6): the host's moves still to be made, the current one first -/
  host : List HostMove
  /-- MODEL'S OWN (log 6): the values the host's reads have returned, newest first -/
  seen : List Limb
  /-- MODEL'S OWN (log 5): who moves at each of the next steps -/
  turns : List Turn
  /-- MODEL'S OWN (log 2): how many free limbs have been drawn -/
  draws : Nat
deriving DecidableEq, Repr

/-- No step of this machine stops with a fault: no access can fault, no operand is illegal, no command can overflow
(60_exceptions.md R191), and the one trap, the abort, is a next state that records itself in STATUS (R200; U14, log 17). So no one
raises a fault. Safe. -/
inductive Fault where
deriving DecidableEq, Repr

/-- Why a step has no meaning. -/
inductive Refusal where
  /-- Raised by an arm of `exec` for a command that has no meaning yet; no arm does now. Safe. -/
  | notModelled (mnemonic : String)
deriving DecidableEq, Repr

/-- R43: STATUS after reset reads 0x00. -/
def Status.reset : Status := { busy := false, valid := false, err := .none, abort := false }

/-- The dead in-flight record at power-on (R43; the values are DESIGN CHOICE, log 3; safe, no rule reads them before an issue). -/
def InFlight.reset : InFlight := { op := .divrem64, sa := 0, sb := 0, sd := 0 }

/-- The division scratch at power-on (R43 unspecified; DESIGN CHOICE zero, log 4; safe, never read before written). -/
def DivScratch.reset : DivScratch := { num := 0, divisor := 0, shift := 0, width := 0 }

/-- The Euclid registers at power-on (R43 unspecified; DESIGN CHOICE zero, log 4; safe, never read before written). -/
def Euclid.reset : Euclid := { r0 := 0, r1 := 0, t0 := 0, t1 := 0, kOdd := false }

/-- The machine right after power-on (R43, R220). STATUS is the spec's; `A`, `B`, `D`, `Q`, `R` are unspecified in the spec and zero
here (DESIGN CHOICE, log 1; unsafe: the hardware may power up with any contents). The `Reset` STEP draws free values instead
(Machine/Ops.lean, log 2). Nothing is queued and no turn is scheduled (log 5, log 6). -/
def State.reset : State :=
  { a := 0, b := 0, d := 0, q := 0, r := 0
    status := Status.reset, flight := InFlight.reset, scratch := DivScratch.reset
    hensel := 0, euclid := Euclid.reset
    host := [], seen := [], turns := [], draws := 0 }

end Sys2Proof.Machine
end

