-- ==== Sys2Proof/Machine/Flags.lean ====
section
/-! DEFINITION. STATUS: its 64-bit word (spec 10_state.md R27, R31, R33) and every change a rule makes to its four fields (issue R40,
result present R16, absent result R193, illegal command R195, abort R200). These four fields are the only flags of the hardware. -/

namespace Sys2Proof.Machine

/-- R31: the two-bit code of an error kind. -/
def ErrKind.code : ErrKind → BitVec 2
  | .none => 0
  | .divisionByZero => 1
  | .noInverseExists => 2
  | .illegalCommand => 3

/-- R27, R33: STATUS as the host reads it: bit 0 `BUSY`, bit 1 `VALID`, bits 3:2 `ERR`, bit 4 `ABORT`, bits 63:5 zero. -/
def Status.word (x : Status) : Limb :=
  (0#59 ++ BitVec.ofBool x.abort ++ x.err.code ++ BitVec.ofBool x.valid ++ BitVec.ofBool x.busy : BitVec 64)

/-- R40, issue: `BUSY <- 1; VALID <- 0; ERR <- 0`. -/
def Status.issued (x : Status) : Status := { x with busy := true, valid := false, err := .none }

/-- R16, completion with a result: `BUSY <- 0; VALID <- 1; ERR <- 0`. `ABORT` is not written (DEDUCED, log 12). -/
def Status.present (x : Status) : Status := { x with busy := false, valid := true, err := .none }

/-- R193, completion without a result: `BUSY <- 0; VALID <- 0; ERR <- code(E)`; `ABORT` stays. -/
def Status.absent (x : Status) (e : ErrKind) : Status := { x with busy := false, valid := false, err := e }

/-- R195, a written word that is no command: `VALID <- 0; ERR <- 3`, nothing else. -/
def Status.illegal (x : Status) : Status := { x with valid := false, err := .illegalCommand }

/-- R200, trap entry: `BUSY <- 0; VALID <- 0; ERR <- 1; ABORT <- 1`. -/
def Status.aborted (x : Status) : Status :=
  { x with busy := false, valid := false, err := .divisionByZero, abort := true }

end Sys2Proof.Machine
end

