-- ==== Sys2Proof/Machine/Operands.lean ====
section
/-! DEFINITION. Operand forms (spec 00_scope.md R12 to R14, 30_encoding.md R73): limbs of a multi-limb value, runs of limbs, zero
extension, `clz64`, `siglimbs`, and the snapshot operands `SA`, `SB`, `SD` a command reads (10_state.md R35). -/

namespace Sys2Proof.Machine

/-- R12: limb `i` of a value, `X bits[64*i+63 : 64*i]`. -/
def limb {w : Nat} (x : BitVec w) (i : Nat) : Limb := x.extractLsb' (64 * i) 64

/-- The integer in the `count` limbs of `x` from limb `lo` up: `Σ x[lo+i] * 2^(64i)` (the window of 42_long_division.md R119). -/
def limbs {w : Nat} (x : BitVec w) (lo count : Nat) : Nat := x.toNat / 2 ^ (64 * lo) % 2 ^ (64 * count)

/-- `x` with its `count` limbs from limb `lo` up replaced by the integer `v`, `v < 2^(64*count)`; the other limbs keep their values. -/
def putLimbs {w : Nat} (x : BitVec w) (lo count : Nat) (v : Nat) : BitVec w :=
  BitVec.ofNat w (x.toNat % 2 ^ (64 * lo) + v * 2 ^ (64 * lo)
    + x.toNat / 2 ^ (64 * (lo + count)) * 2 ^ (64 * (lo + count)))

/-- `x` with limb `i` replaced by `v` (20_memory.md R56: that limb only). -/
def putLimb {w : Nat} (x : BitVec w) (i : Nat) (v : Limb) : BitVec w := putLimbs x i 1 v.toNat

/-- R12: the 256-bit value of four limbs, `X[0] + X[1]*2^64 + X[2]*2^128 + X[3]*2^192`. -/
def ofLimbs (x0 x1 x2 x3 : Limb) : Word := x3 ++ x2 ++ x1 ++ x0

/-- R73: a 64-bit value placed in a 256-bit register, limbs 1 to 3 zero ("construction from a 64-bit value"). -/
def ofLimb (x : Limb) : Word := x.setWidth 256

/-- R14: `is_odd(X)`, bit 0 is 1. -/
def isOdd (x : Word) : Bool := x.getLsbD 0

/-- R14: `clz64(x)` for a limb `x != 0`: the zero bits above its highest set bit. No rule applies it to 0. -/
def clz64 (x : Limb) : Nat := 63 - Nat.log2 x.toNat

/-- R14, 42_long_division.md R112: `siglimbs(X)`, found by scanning from the most significant limb: the index of the highest
non-zero limb plus one, and 0 for zero. -/
def siglimbs (x : Word) : Fin 5 :=
  if limb x 3 ≠ 0 then 4
  else if limb x 2 ≠ 0 then 3
  else if limb x 1 ≠ 0 then 2
  else if limb x 0 ≠ 0 then 1
  else 0

/-- R35: the snapshot `SA` of the command in flight. -/
def State.sa (s : State) : Word := s.flight.sa

/-- R35: the snapshot `SB` of the command in flight. -/
def State.sb (s : State) : Word := s.flight.sb

/-- R35: the snapshot `SD` of the command in flight. -/
def State.sd (s : State) : Limb := s.flight.sd

end Sys2Proof.Machine
end

