-- ==== Sys2Proof/Machine/Ops.lean ====
section
/-! DEFINITION. The named operations over the registers: issue (spec 10_state.md R40), the three ways a command ends (result present
R16, absent result R193, the abort trap R200), the illegal command (60_exceptions.md R195) and the `Reset` step
(70_reset_and_hazards.md R220), which is also the only return from the abort (R221). -/

namespace Sys2Proof.Machine

/-- R40, issue of a legal command: `OP <- op; SA <- A; SB <- B; SD <- D; BUSY <- 1; VALID <- 0; ERR <- 0`. Nothing else changes. -/
def issue (i : Instr) (s : State) : State :=
  { s with flight := { op := i, sa := s.a, sb := s.b, sd := s.d }, status := s.status.issued }

/-- R16, R40: the end of a command whose result registers are already written in `s`. -/
def resultPresent (s : State) : State := { s with status := s.status.present }

/-- R193: `result none(E)`. No data register is written. -/
def resultNone (e : ErrKind) (s : State) : State := { s with status := s.status.absent e }

/-- R200: `raise Abort(DivisionByZero)`, TAKING THE TRAP. It saves nothing, changes no mode, and goes to no handler (R201): its whole
effect is on STATUS, and the abort state of R203 is what STATUS then makes of every later access. -/
def raiseAbort (s : State) : State := { s with status := s.status.aborted }

/-- R195: `IllegalCommand`. Only `VALID` and `ERR` change. -/
def illegalCommand (s : State) : State := { s with status := s.status.illegal }

/-- Four free limbs from draw number `s.draws + k` on (log 2). -/
def drawWord (s : State) (k : Nat) : Word :=
  ofLimbs (Config.freeLimb (s.draws + k)) (Config.freeLimb (s.draws + k + 1))
    (Config.freeLimb (s.draws + k + 2)) (Config.freeLimb (s.draws + k + 3))

/-- The free contents of the division scratch after `Reset` (R220, R36; log 2). -/
def drawScratch (s : State) (k : Nat) : DivScratch :=
  { num := Config.freeLimb (s.draws + k) ++ drawWord s (k + 1)
    divisor := drawWord s (k + 5)
    shift := (Config.freeLimb (s.draws + k + 9)).setWidth 6
    width := Fin.ofNat 5 (Config.freeLimb (s.draws + k + 10)).toNat }

/-- The free contents of the Euclid registers after `Reset` (R220, R38; log 2). -/
def drawEuclid (s : State) (k : Nat) : Euclid :=
  { r0 := drawWord s k, r1 := drawWord s (k + 4), t0 := drawWord s (k + 8), t1 := drawWord s (k + 12)
    kOdd := (Config.freeLimb (s.draws + k + 16)).getLsbD 0 }

/-- How many free limbs one `Reset` draws. -/
def resetDraws : Nat := 49

/-- R220: the `Reset` step. STATUS reads 0x00; the command in flight is dropped (its record is dead from here on, R43); every data
register and every hidden datapath register takes free contents. The host's own moves and what it has read are not the unit's. -/
def resetUnit (s : State) : State :=
  { s with
    status := Status.reset
    a := drawWord s 0, b := drawWord s 4, d := Config.freeLimb (s.draws + 8)
    q := drawWord s 9, r := drawWord s 13
    scratch := drawScratch s 17, hensel := drawWord s 28, euclid := drawEuclid s 32
    draws := s.draws + resetDraws }

end Sys2Proof.Machine
end

