-- ==== Sys2Proof/Machine/ShortDivision.lean ====
section
/-! DEFINITION. The short-division unit and the command DIVREM64 (spec 41_short_division.md R100 to R107). -/

namespace Sys2Proof.Machine

/-- What the limb chain gives: four quotient limbs and a 64-bit remainder. -/
structure ChainResult where
  quot : Word
  rem : Limb
deriving DecidableEq, Repr

/-- R102: four uses of `div2by1`, limbs 3, 2, 1, 0 in that order, each taking the remainder of the one before as its high word. -/
def limbChain (carryIn : Limb) (a : Word) (d : Limb) : ChainResult :=
  let x3 := div2by1 carryIn (limb a 3) d
  let x2 := div2by1 x3.2 (limb a 2) d
  let x1 := div2by1 x2.2 (limb a 1) d
  let x0 := div2by1 x1.2 (limb a 0) d
  { quot := ofLimbs x0.1 x1.1 x2.1 x3.1, rem := x0.2 }

/-- R101, R102: completion of DIVREM64. The zero test is on the snapshot, before the chain (R105). -/
def execDivrem64 (s : State) : Host.Outcome State Fault Refusal :=
  if s.sd = 0 then .next (resultNone .divisionByZero s)
  else
    let x := limbChain 0 s.sa s.sd
    .next (resultPresent { s with q := x.quot, r := ofLimb x.rem })

end Sys2Proof.Machine
end

