-- ==== Sys2Proof/Machine/LongDivision.lean ====
section
/-! DEFINITION. The long-division unit and the command DIVREM256 (spec 42_long_division.md R110 to R131): dispatch on the divisor's
width, staging, normalisation, the digit loop of Knuth's Algorithm D on the five-limb buffer, split and un-shift. Only the remainder
is un-shifted (90_conflicts.md C2). -/

namespace Sys2Proof.Machine

/-- R114: the dividend staged into the five-limb buffer, the overflow limb zero. -/
def stage (a : Word) : Scratch := a.setWidth 320

/-- R116: the shift count of the divisor `b` of width `n`. -/
def shiftCount (b : Word) (n : Nat) : Nat := clz64 (limb b (n - 1))

/-- R120 without the loop: the first estimate `(qhat, rhat)` from the window's top limb, the limb below it and the divisor's top
limb, the estimate capped at `2^64 - 1`. -/
def trialEstimate (top mid vTop : Limb) : Nat × Nat :=
  if vTop ≤ top then (2 ^ 64 - 1, mid.toNat + vTop.toNat)
  else
    let x := div2by1 top mid vTop
    (x.1.toNat, x.2.toNat)

/-- R120: the test of the correction loop, against the divisor's second limb. -/
def trialTooLarge (vNext low : Limb) (qhat rhat : Nat) : Bool :=
  decide (rhat < 2 ^ 64) && decide (rhat * 2 ^ 64 + low.toNat < qhat * vNext.toNat)

/-- R120: the correction loop, unrolled at most `fuel` times (log 11). -/
def trialCorrect (vTop vNext low : Limb) : Nat → Nat → Nat → Nat × Nat
  | 0, qhat, rhat => (qhat, rhat)
  | fuel + 1, qhat, rhat =>
    if trialTooLarge vNext low qhat rhat then trialCorrect vTop vNext low fuel (qhat - 1) (rhat + vTop.toNat)
    else (qhat, rhat)

/-- R120: the trial digit of the window at limb `j`: the estimate, corrected. -/
def trialDigit (n : Nat) (v : Word) (j : Nat) (num : Scratch) : Nat :=
  let e := trialEstimate (limb num (j + n)) (limb num (j + n - 1)) (limb v (n - 1))
  (trialCorrect (limb v (n - 1)) (limb v (n - 2)) (limb num (j + n - 2)) Config.correctionFuel e.1 e.2).1

/-- R121, R122 on the window's integer: multiply and subtract modulo `2^(64(n+1))`, and on a borrow lower the digit by one and add the
divisor back, the carry out dropped. Answers the final digit and the window. -/
def subtractAndRepair (n v qhat window : Nat) : Nat × Nat :=
  let m := 2 ^ (64 * (n + 1))
  let p := qhat * v
  let w := (window + m - p) % m
  if window < p then (qhat - 1, (w + v) % m) else (qhat, w)

/-- R119 to R123: one iteration of the digit loop at limb `j`; the digit goes into the limb `j + n` that the subtraction vacated. -/
def digitStep (n : Nat) (v : Word) (j : Nat) (num : Scratch) : Scratch :=
  let x := subtractAndRepair n v.toNat (trialDigit n v j num) (limbs num j (n + 1))
  putLimb (putLimbs num j (n + 1) x.2) (j + n) (BitVec.ofNat 64 x.1)

/-- R119: the digit loop from limb `j` down to limb 0. -/
def digitLoop (n : Nat) (v : Word) : Nat → Scratch → Scratch
  | 0, num => digitStep n v 0 num
  | j + 1, num => digitLoop n v j (digitStep n v (j + 1) num)

/-- R119, R125 (b), (d), (e): the invariant of the digit loop, for the numerator `num0` that entered it: when the digits of weight
`2^(64i)` and up are found, the limbs from `i + n` up are those digits, the limbs below are the part of the numerator still to be
divided, and that part is below `2^(64i) * V`. -/
abbrev DigitInv (n : Nat) (v : Word) (num0 : Scratch) (i : Nat) (num : Scratch) : Prop :=
  num0.toNat = limbs num (i + n) (5 - (i + n)) * v.toNat * 2 ^ (64 * i) + limbs num 0 (i + n) ∧
  limbs num 0 (i + n) < 2 ^ (64 * i) * v.toNat

/-- One division as it leaves the unit: quotient and remainder, none for a zero divisor, and the hidden registers. -/
structure DivRun where
  result : Option (Word × Word)
  scratch : DivScratch
deriving DecidableEq, Repr

/-- R116 to R124: the branches `n` = 2, 3, 4. `V` is `SB * 2^s` and `N` becomes `SA * 2^s` before the loop (R117, R118), which keeps
`DigitInv` from limb `5 - n` down to limb 0 (R125); after it the limbs from `n` up are the quotient and the low `n` limbs, shifted right
by `s`, the remainder. -/
def knuthDivide (n : Fin 5) (a b : Word) : DivRun :=
  let s := shiftCount b n
  let v := b <<< s
  let num := digitLoop n v (4 - n) (stage a <<< s)
  { result := some (BitVec.ofNat 256 (limbs num n (5 - n)), BitVec.ofNat 256 (limbs num 0 n / 2 ^ s))
    scratch := { num := num, divisor := v, shift := BitVec.ofNat 6 s, width := n } }

/-- R112 to R115: dispatch on the divisor's width: a zero divisor gives no result before any arithmetic; one limb delegates to the
chain of R102 with the staged buffer's fifth limb as its initial carry; two to four limbs run Algorithm D. -/
def longDivide (old : DivScratch) (a b : Word) : DivRun :=
  let n := siglimbs b
  if n = 0 then { result := none, scratch := { old with width := 0 } }
  else if n = 1 then
    let x := limbChain (limb (stage a) 4) a (limb b 0)
    { result := some (x.quot, ofLimb x.rem), scratch := { old with num := stage a, width := 1 } }
  else knuthDivide n a b

/-- R111: completion of DIVREM256. -/
def execDivrem256 (s : State) : Host.Outcome State Fault Refusal :=
  let x := longDivide s.scratch s.sa s.sb
  let t := { s with scratch := x.scratch }
  match x.result with
  | none => .next (resultNone .divisionByZero t)
  | some (q, r) => .next (resultPresent { t with q := q, r := r })

end Sys2Proof.Machine
end

