-- ==== Sys2Proof/Machine/ModularInverse.lean ====
section
/-! DEFINITION. The modular-inverse pipeline and the command INVMOD (spec 44_modular_inverse.md R155 to R172): zero test, reduce,
Euclid loop on the long-division unit, coprimality check, sign fix-up. -/

namespace Sys2Proof.Machine

/-- The pipeline's registers while it runs: its own (R38) and those of the long-division unit it uses (R36). -/
structure EuclidRun where
  regs : Euclid
  scratch : DivScratch
deriving DecidableEq, Repr

/-- R158: the sign of the coefficient `t_K`: plus for odd `K`, minus for even `K`. -/
def euclidSign (kOdd : Bool) : Int := if kOdd then 1 else -1

/-- R158, R164, R165 (b): the invariant of the Euclid loop, for value `a` and modulus `m`: what the registers mean before every
iteration and after the last. -/
structure EuclidInv (a m : Word) (e : Euclid) : Prop where
  /-- R164: the identity that bounds the magnitudes -/
  bound : e.r0.toNat * e.t1.toNat + e.r1.toNat * e.t0.toNat = m.toNat
  dec : e.r1.toNat < e.r0.toNat
  mono : e.t0.toNat ≤ e.t1.toNat
  /-- the remainders stay within the modulus, and below it once an iteration has been done -/
  top : e.r0.toNat ≤ m.toNat ∧ (e.kOdd = true → e.r0.toNat < m.toNat)
  /-- R159: the remainders keep the gcd -/
  gcd : Nat.gcd e.r0.toNat e.r1.toNat = Nat.gcd a.toNat m.toNat
  /-- R158: `r_K ≡ t_K * a (mod m)` -/
  bez0 : (m.toNat : Int) ∣ euclidSign e.kOdd * e.t0.toNat * a.toNat - e.r0.toNat
  /-- R158: `r_{K+1} ≡ t_{K+1} * a (mod m)` -/
  bez1 : (m.toNat : Int) ∣ -(euclidSign e.kOdd) * e.t1.toNat * a.toNat - e.r1.toNat

/-- R158: reduce and load: `r0 = m`, `r1 = a mod m`, `t0 = 0`, `t1 = 1`, `k_odd = 0`. Used with `m != 0` only, where the division has a
result (R163). -/
def euclidLoad (old : DivScratch) (a m : Word) : EuclidRun :=
  let x := longDivide old a m
  { regs := { r0 := m, r1 := (x.result.map Prod.snd).getD 0, t0 := 0, t1 := 1, kOdd := false }, scratch := x.scratch }

/-- R159: the body of the loop. Used with `r1 != 0` only, where the division has a result (R163). -/
def euclidStep (x : EuclidRun) : EuclidRun :=
  let e := x.regs
  let y := longDivide x.scratch e.r0 e.r1
  let (q, r2) := y.result.getD (0, 0)
  { regs := { r0 := e.r1, r1 := r2, t0 := e.t1, t1 := e.t0 + q * e.t1, kOdd := !e.kOdd }, scratch := y.scratch }

/-- R159: the loop, unrolled at most `fuel` times (log 11). -/
def euclidLoop : Nat → EuclidRun → EuclidRun
  | 0, x => x
  | fuel + 1, x => if x.regs.r1 = 0 then x else euclidLoop fuel (euclidStep x)

/-- R158, R159: the registers when the loop has ended; `EuclidInv` holds of them (R165). -/
def euclidRun (old : DivScratch) (a m : Word) : EuclidRun := euclidLoop Config.euclidFuel (euclidLoad old a m)

/-- R160, R161: coprimality check and sign fix-up: with `r0 = 1`, the coefficient of `a` reduced into `[0, m)` (R165 (c)). -/
def euclidFixup (m : Word) (e : Euclid) : Option Word :=
  if e.r0 ≠ 1 then none
  else if e.kOdd then some e.t0
  else if e.t0 = 0 then some 0
  else some (m - e.t0)

/-- R156 by R157 to R161: completion of INVMOD. A zero modulus ends it before any division, with `NoInverseExists` (R157). -/
def execInvmod (s : State) : Host.Outcome State Fault Refusal :=
  if s.sb = 0 then .next (resultNone .noInverseExists s)
  else
    let x := euclidRun s.scratch s.sa s.sb
    let t := { s with scratch := x.scratch, euclid := x.regs }
    match euclidFixup s.sb x.regs with
    | none => .next (resultNone .noInverseExists t)
    | some v => .next (resultPresent { t with q := v })

end Sys2Proof.Machine
end

