-- ==== Sys2Proof/Machine/OperatorGlue.lean ====
section
/-! DEFINITION. The operator glue: DIV, REM, DIVA, REMA (spec 45_operator_glue.md R175 to R185), the unchecked tier. All four run the
long-division unit on `(SA, SB)` and abort on a zero divisor; they differ in which half they keep and where it goes (R180). -/

namespace Sys2Proof.Machine

/-- R175: the common part: divide the snapshot, abort on a zero divisor, else let `keep` write its one destination. -/
def operatorDivide (keep : Word × Word → State → State) (s : State) : Host.Outcome State Fault Refusal :=
  let x := longDivide s.scratch s.sa s.sb
  let t := { s with scratch := x.scratch }
  match x.result with
  | none => .next (raiseAbort t)
  | some qr => .next (resultPresent (keep qr t))

/-- R176: completion of DIV: `Q <- floor(SA / SB)`. -/
def execDiv (s : State) : Host.Outcome State Fault Refusal :=
  operatorDivide (fun qr t => { t with q := qr.1 }) s

/-- R177: completion of REM: `R <- SA mod SB`. -/
def execRem (s : State) : Host.Outcome State Fault Refusal :=
  operatorDivide (fun qr t => { t with r := qr.2 }) s

/-- R178: completion of DIVA: `A <- floor(SA / SB)`. -/
def execDiva (s : State) : Host.Outcome State Fault Refusal :=
  operatorDivide (fun qr t => { t with a := qr.1 }) s

/-- R179: completion of REMA: `A <- SA mod SB`. -/
def execRema (s : State) : Host.Outcome State Fault Refusal :=
  operatorDivide (fun qr t => { t with a := qr.2 }) s

end Sys2Proof.Machine
end

