-- ==== Sys2Proof/Machine/RingInverse.lean ====
section
/-! DEFINITION. The ring-inverse engine and the command INV (spec 43_ring_inverse.md R140 to R153): a seed and six Newton-Raphson
doubling steps, four at 64 bits, one at 128, one at 256 (90_conflicts.md C1), all wrapping at their working width. -/

namespace Sys2Proof.Machine

/-- R143: the seed `(3*c) XOR 2` on the low limb, the product first. -/
def henselSeed (c : Limb) : Limb := (3 * c) ^^^ 2

/-- R144 to R146: one doubling step `r <- r*(2 - c*r)`, wrapping at width `w`. -/
def newtonStep {w : Nat} (c r : BitVec w) : BitVec w := r * (2 - c * r)

/-- R144: the seed and the four 64-bit steps, using only the low limb. -/
def hensel64 (c : Limb) : Limb :=
  newtonStep c (newtonStep c (newtonStep c (newtonStep c (henselSeed c))))

/-- R145: the step at 128 bits on the low 128 bits of the value. -/
def hensel128 (a : Word) : BitVec 128 := newtonStep (a.setWidth 128) ((hensel64 (limb a 0)).setWidth 128)

/-- R146: the final step over the full value. -/
def henselInverse (a : Word) : Word := newtonStep a ((hensel128 a).setWidth 256)

/-- R141: completion of INV. The parity test is made on the snapshot before the seed (R150). -/
def execInv (s : State) : Host.Outcome State Fault Refusal :=
  if isOdd s.sa then
    let x := henselInverse s.sa
    .next (resultPresent { s with q := x, hensel := x })
  else .next (resultNone .noInverseExists s)

end Sys2Proof.Machine
end

