-- ==== Sys2Proof/Machine/Dispatch.lean ====
section
/-! DEFINITION. exec: one arm per command, each one direct call of its meaning. exec is the unit's completion step for the command
(spec 10_state.md R40): what the family rule for OP writes, computed from SA, SB, SD. -/

namespace Sys2Proof.Machine

def exec (i : Instr) (s : State) : Host.Outcome State Fault Refusal :=
  match i with
  | .divrem64 => Sys2Proof.Machine.execDivrem64 s
  | .divrem256 => Sys2Proof.Machine.execDivrem256 s
  | .inv => Sys2Proof.Machine.execInv s
  | .invmod => Sys2Proof.Machine.execInvmod s
  | .div => Sys2Proof.Machine.execDiv s
  | .rem => Sys2Proof.Machine.execRem s
  | .diva => Sys2Proof.Machine.execDiva s
  | .rema => Sys2Proof.Machine.execRema s

end Sys2Proof.Machine
end

