-- ==== Sys2Proof/WellFormed.lean ====
section
/-! DEFINITION. Which command words are well formed (spec 30_encoding.md R71, R72, R75). A command of `Instr` has no operand, so every
one of them is well formed; the checks are on the raw fields of a written word. -/

namespace Sys2Proof

/-- R71: the field `zero`, bits 63:4, must be 0. -/
def Cmd64.reservedClear (c : Cmd64) : Bool := c.zero == 0

/-- R74: the defined opcodes are 0x1 to 0x8. -/
def Cmd64.opcodeDefined (c : Cmd64) : Bool := decide (1#4 ≤ c.opcode) && decide (c.opcode ≤ 8#4)

/-- R72: a legal command word passes both tests. -/
def Cmd64.wf (c : Cmd64) : Bool := c.reservedClear && c.opcodeDefined

/-- R71: no command has a field that could be ill formed. -/
def Instr.wf (_ : Instr) : Bool := true

end Sys2Proof
end

