-- ==== Sys2Proof/Decode.lean ====
section
/-! DEFINITION. The decoder of a word written to `CMD` and the encoder (spec 30_encoding.md R70 to R76). The decoder is total: every
one of the 2^64 words gets a command or a named reason why it is illegal (R72). A command word is one 64-bit integer; no byte order
exists in it (20_memory.md R53). -/

namespace Sys2Proof

/-- R71: the fields of a 64-bit command word. -/
def Cmd64.ofWord (w : Limb) : Cmd64 :=
  { opcode := w.extractLsb' 0 4, zero := w.extractLsb' 4 60 }

/-- R71: the word with these fields. -/
def Cmd64.toWord (c : Cmd64) : Limb := c.zero ++ c.opcode

/-- R74: the command an opcode selects; none for 0x0 and 0x9 to 0xF. -/
def decodeOpcode (op : BitVec 4) : Option Instr :=
  match op.toNat with
  | 1 => some .divrem64
  | 2 => some .divrem256
  | 3 => some .inv
  | 4 => some .invmod
  | 5 => some .div
  | 6 => some .rem
  | 7 => some .diva
  | 8 => some .rema
  | _ => none

/-- R72: the verdict on a written command word, tests in the rule's order. -/
def decode (w : Limb) : Except IllegalWord Instr :=
  let c := Cmd64.ofWord w
  if c.reservedClear then
    match decodeOpcode c.opcode with
    | some i => .ok i
    | none => .error .undefinedOpcode
  else .error .reservedBitsSet

/-- R74: the opcode of a command. -/
def Instr.opcode : Instr → BitVec 4
  | .divrem64 => 0x1
  | .divrem256 => 0x2
  | .inv => 0x3
  | .invmod => 0x4
  | .div => 0x5
  | .rem => 0x6
  | .diva => 0x7
  | .rema => 0x8

/-- R71, R74: the command word of a command, its field `zero` clear. -/
def encode (i : Instr) : Limb := Cmd64.toWord { opcode := i.opcode, zero := 0 }

/-- The command the decoder reads from the 64-bit word `w`, numbered as spec/opcode_table.json numbers it (bit 0 the least
significant). The table gives every row all 64 bits, so `nbits` adds nothing; a number that does not fit a word is no command word. -/
def decodeTableWord (_nbits w : Nat) : Option Instr :=
  if w < 2 ^ 64 then
    match decode (BitVec.ofNat 64 w) with
    | .ok i => some i
    | .error _ => none
  else none

end Sys2Proof
end

