-- ==== Sys2Proof/Machine/HostPort.lean ====
section
/-! DEFINITION. The register space and the host's moves (spec 20_memory.md): the map R51, MemRead R55, MemWrite R56, the decoding of a
CMD write (30_encoding.md R72, R197), the hold R60, the abort state R61, WAIT (30_encoding.md R78) and the host's RESET line. -/

namespace Sys2Proof.Machine

/-- R51: the address of STATUS, the one slot that is never held. -/
def statusAddr : LimbAddr := 0x12

/-- R51: the address of CMD. -/
def cmdAddr : LimbAddr := 0x11

/-- R51, R55: what slot `addr` reads as. CMD and the reserved slots 0x13 to 0x1F read 0 (R57, R58). This is the whole address space:
32 views of the registers, none with contents of its own. -/
def readSlot (s : State) (addr : LimbAddr) : Limb :=
  let n := addr.toNat
  if n < 0x04 then limb s.a n
  else if n < 0x08 then limb s.b (n - 0x04)
  else if n < 0x0C then limb s.q (n - 0x08)
  else if n < 0x10 then limb s.r (n - 0x0C)
  else if n = 0x10 then s.d
  else if n = 0x12 then s.status.word
  else 0

/-- R55: MemRead, answering the datum, or none while the access is held (R60). It changes nothing (R59). -/
def memRead (s : State) (addr : LimbAddr) : Option Limb :=
  if s.status.busy && addr != statusAddr then none else some (readSlot s addr)

/-- R72: a word written to CMD outside the busy and the abort state: issue, or IllegalCommand (R195). -/
def writeCommand (w : Limb) (s : State) : State :=
  match decode w with
  | .ok i => issue i s
  | .error _ => illegalCommand s

/-- R56: what a write does that is neither held nor discarded by the abort state. Writes to `Q`, `R`, STATUS and the reserved slots
are discarded (R57, R58). -/
def writeSlot (s : State) (addr : LimbAddr) (v : Limb) : State :=
  let n := addr.toNat
  if n < 0x04 then { s with a := putLimb s.a n v }
  else if n < 0x08 then { s with b := putLimb s.b (n - 0x04) v }
  else if n = 0x10 then { s with d := v }
  else if n = 0x11 then writeCommand v s
  else s

/-- R56: MemWrite, none while the access is held (R60); in the abort state every write is discarded (R61). -/
def memWrite (s : State) (addr : LimbAddr) (v : Limb) : Option State :=
  if s.status.busy then none
  else if s.status.abort then some s
  else some (writeSlot s addr v)

/-- The host's turn: it tries its current move. A held access stays pending and changes nothing (R60); WAIT stays current until the
STATUS it read has `BUSY = 0` (R78); with no move left nothing happens. -/
def hostTurn (s : State) : State :=
  match s.host with
  | [] => s
  | .read addr :: rest =>
    match memRead s addr with
    | none => s
    | some v => { s with host := rest, seen := v :: s.seen }
  | .write addr v :: rest =>
    match memWrite s addr v with
    | none => s
    | some t => { t with host := rest }
  | .wait :: rest =>
    { s with host := if s.status.busy then s.host else rest, seen := s.status.word :: s.seen }
  | .reset :: rest => { resetUnit s with host := rest }

end Sys2Proof.Machine
end

