-- ==== Sys2Proof/Machine/Turns.lean ====
section
/-! DEFINITION. Who moves, and what that move does (spec 00_scope.md R19, 10_state.md R40, R45, 70_reset_and_hazards.md R220, R231). -/

namespace Sys2Proof.Machine

/-- R45: who moves at this step. When no turn is scheduled the unit moves if a command is in flight, so that every command completes
(R231), and the host otherwise (DESIGN CHOICE, log 5; safe, every finite interleaving is some list of turns). -/
def nextTurn (s : State) : Turn :=
  match s.turns with
  | [] => if s.status.busy then .unit else .host
  | t :: _ => t

/-- The state with this step's turn used up. -/
def dropTurn (s : State) : State := { s with turns := s.turns.tail }

/-- R40: the unit's turn: `Complete` for the command in flight while `BUSY = 1`; otherwise the unit has no enabled step (R203) and
nothing changes. -/
def unitTurn (s : State) : Host.Outcome State Fault Refusal :=
  if s.status.busy then exec s.flight.op s else .next s

/-- One step: the turn's owner moves. -/
def takeTurn (s : State) : Host.Outcome State Fault Refusal :=
  match nextTurn s with
  | .host => .next (hostTurn (dropTurn s))
  | .unit => unitTurn (dropTurn s)
  | .reset => .next (resetUnit (dropTurn s))

/-- The turns that give the very next step to `t`: none need be scheduled where the empty schedule already does. -/
def turnsFor (t : Turn) (s : State) : List Turn :=
  match s.turns with
  | [] => []
  | ts => t :: ts

/-- The state in which the word `w` is the very next command the unit meets (log 6): a legal word is in flight, its operands taken
from `A`, `B`, `D` as at issue (R40), and the next turn is the unit's; an illegal word is the host's current write to CMD, with the
unit idle, and the next turn is the host's. -/
def placeCommand (s : State) (w : Nat) (i : Option Instr) : State :=
  match i with
  | some i =>
    { s with
      flight := { op := i, sa := s.a, sb := s.b, sd := s.d }
      status := { busy := true, valid := false, err := .none, abort := false }
      turns := turnsFor .unit s }
  | none =>
    { s with
      status := { s.status with busy := false, abort := false }
      host := .write cmdAddr (BitVec.ofNat 64 w) :: s.host
      turns := turnsFor .host s }

end Sys2Proof.Machine
end

