-- ==== Sys2Proof/Machine/Step.lean ====
section
/-! DEFINITION. The step, and where the next command is placed. -/

namespace Sys2Proof.Machine

/-- One step of the machine (R8: one host move or one completion). -/
def step (s : State) : Host.Outcome State Fault Refusal := takeTurn s

/-- `s` with the command word `w` placed where the next step meets it. -/
def State.withFetchWord (s : State) (nbits w : Nat) : State := placeCommand s w (decodeTableWord nbits w)

end Sys2Proof.Machine
end

