-- ==== Sys2Proof/Laws/PerInstr.lean ====
section
/-! SUPPORT. Statements made for every command one by one: the family DecodeEncode (spec 30_encoding.md R72, R74). -/

namespace Sys2Proof.Laws.DecodeEncode

/-- R72, R74: the command's word is one of the integers 1 to 8 and decodes to the command itself. -/
def Statement (i : Sys2Proof.Instr) : Prop :=
  i.wf = true ∧ Sys2Proof.decode (Sys2Proof.encode i) = .ok i ∧
  1 ≤ (Sys2Proof.encode i).toNat ∧ (Sys2Proof.encode i).toNat ≤ 8 ∧
  Sys2Proof.decodeTableWord 64 (Sys2Proof.encode i).toNat = some i

theorem divrem64 : Statement .divrem64 := ⟨rfl, rfl, by decide, by decide, rfl⟩
theorem divrem256 : Statement .divrem256 := ⟨rfl, rfl, by decide, by decide, rfl⟩
theorem inv : Statement .inv := ⟨rfl, rfl, by decide, by decide, rfl⟩
theorem invmod : Statement .invmod := ⟨rfl, rfl, by decide, by decide, rfl⟩
theorem div : Statement .div := ⟨rfl, rfl, by decide, by decide, rfl⟩
theorem rem : Statement .rem := ⟨rfl, rfl, by decide, by decide, rfl⟩
theorem diva : Statement .diva := ⟨rfl, rfl, by decide, by decide, rfl⟩
theorem rema : Statement .rema := ⟨rfl, rfl, by decide, by decide, rfl⟩

end Sys2Proof.Laws.DecodeEncode
end

