-- ==== Sys2Proof/Machine/Notation.lean ====
section
/-! DEFINITION. The host's written form (spec 30_encoding.md R77, R78): addresses of the named slots, the bus transaction of a move, and
the pseudo-instructions as lists of moves. Also the place of a slot's bytes on a platform bus (20_memory.md R53), which no rule reads. -/

namespace Sys2Proof.Machine

/-- R51: the limb address of a named slot; the limb at index `i` of a 256-bit register is at `base + i`. -/
def slotAddr : Slot → LimbAddr
  | .a i => BitVec.ofNat 5 i
  | .b i => BitVec.ofNat 5 (0x04 + i)
  | .q i => BitVec.ofNat 5 (0x08 + i)
  | .r i => BitVec.ofNat 5 (0x0C + i)
  | .d => 0x10
  | .cmd => cmdAddr
  | .status => statusAddr

/-- R77: `WR <slot>, <imm64>`. -/
def wr (x : Slot) (v : Limb) : HostMove := .write (slotAddr x) v

/-- R77: `RD <slot>`. -/
def rd (x : Slot) : HostMove := .read (slotAddr x)

/-- R77: `CMD <mnemonic>` is `WR CMD, <command word>`. -/
def cmdLine (i : Instr) : HostMove := wr .cmd (encode i)

/-- R78: `LDA <imm256>`. -/
def lda (x : Word) : List HostMove := [wr (.a 0) (limb x 0), wr (.a 1) (limb x 1), wr (.a 2) (limb x 2), wr (.a 3) (limb x 3)]

/-- R78: `LDB <imm256>`. -/
def ldb (x : Word) : List HostMove := [wr (.b 0) (limb x 0), wr (.b 1) (limb x 1), wr (.b 2) (limb x 2), wr (.b 3) (limb x 3)]

/-- R78: `LDD <imm64>`. -/
def ldd (x : Limb) : List HostMove := [wr .d x]

/-- R78: `RDA`. -/
def rda : List HostMove := [rd (.a 0), rd (.a 1), rd (.a 2), rd (.a 3)]

/-- R78: `RDQ`. -/
def rdq : List HostMove := [rd (.q 0), rd (.q 1), rd (.q 2), rd (.q 3)]

/-- R78: `RDR`. -/
def rdr : List HostMove := [rd (.r 0), rd (.r 1), rd (.r 2), rd (.r 3)]

/-- R77: `kind` of a bus transaction. -/
inductive BusKind where
  | w
  | r
deriving DecidableEq, Repr

/-- R77: a bus transaction `(kind, addr, data)`; a read carries no data. -/
structure BusTransaction where
  kind : BusKind
  addr : LimbAddr
  data : Option Limb
deriving DecidableEq, Repr

/-- R77: the transaction of one move; WAIT is reads of STATUS (R78), RESET is not a bus transaction. -/
def busTransaction : HostMove → Option BusTransaction
  | .read addr => some { kind := .r, addr := addr, data := none }
  | .write addr v => some { kind := .w, addr := addr, data := some v }
  | .wait => some { kind := .r, addr := statusAddr, data := none }
  | .reset => none

/-- R53: the byte address of slot `k` if a platform maps the register space onto a byte-addressed bus. No rule reads it (log 15). -/
def slotByteAddr (k : LimbAddr) : Nat := Config.platformBase + 8 * k.toNat

/-- R53: the byte address that carries byte `i` of the limb in slot `k`, byte 0 being bits 7:0. No rule reads it (log 15). -/
def limbByteAddr (k : LimbAddr) (i : Fin 8) : Nat := slotByteAddr k + (Config.byteLane i).val

end Sys2Proof.Machine
end

