-- ==== Sys2Proof/Safety.lean ====
section
/-! DEFINITION. What counts as a proper state and a safe run, in the terms claims use (spec 10_state.md R39, R44; 60_exceptions.md
R201, R203; 93_implementation_defined.md U14). -/

namespace Sys2Proof.Machine

/-- R44 (a), (b), (c): the relations between the fields of STATUS in every reachable state. -/
abbrev State.StatusInv (s : State) : Prop :=
  (s.status.valid = true → s.status.err = .none) ∧
  (s.status.busy = true → s.status.valid = false ∧ s.status.err = .none ∧ s.status.abort = false) ∧
  (s.status.abort = true → s.status.busy = false ∧ s.status.valid = false ∧ s.status.err = .divisionByZero)

/-- R44: the seven values STATUS can read as. -/
def legalStatusWords : List Limb := [0x00, 0x01, 0x02, 0x04, 0x08, 0x0C, 0x14]

/-- R201, U14: no abort is recorded; a state with `ABORT = 1` is never a final state of a correct program. -/
abbrev State.NoAbort (s : State) : Prop := s.status.abort = false

/-- R39: two states that differ at most in the hidden datapath registers (R36 to R38). -/
abbrev State.SameVisible (s t : State) : Prop :=
  { t with scratch := s.scratch, hensel := s.hensel, euclid := s.euclid } = s

/-- The five data registers of `t` are those of `s`. -/
abbrev State.SameData (s t : State) : Prop :=
  t.a = s.a ∧ t.b = s.b ∧ t.d = s.d ∧ t.q = s.q ∧ t.r = s.r

/-- The model's own fields of `t` are those of `s`, and so is the in-flight record: what no completion touches. -/
abbrev State.SameOwn (s t : State) : Prop :=
  t.flight = s.flight ∧ t.host = s.host ∧ t.seen = s.seen ∧ t.turns = s.turns ∧ t.draws = s.draws

/-- R40, R60: while a command is in flight the operand registers still hold the snapshot it was issued on. -/
abbrev State.SnapshotInv (s : State) : Prop := s.status.busy = true → s.sa = s.a ∧ s.sb = s.b ∧ s.sd = s.d

/-- R24, the table of 10_state.md section 2: the commands whose result goes to `Q`. -/
def writesQ : Instr → Bool
  | .divrem64 | .divrem256 | .inv | .invmod | .div => true
  | .rem | .diva | .rema => false

/-- R25, the table of 10_state.md section 2: the commands whose result goes to `R`. -/
def writesR : Instr → Bool
  | .divrem64 | .divrem256 | .rem => true
  | .inv | .invmod | .div | .diva | .rema => false

/-- R21, the table of 10_state.md section 2: the commands whose result goes to `A`. -/
def writesA : Instr → Bool
  | .diva | .rema => true
  | .divrem64 | .divrem256 | .inv | .invmod | .div | .rem => false

end Sys2Proof.Machine
end

