-- ==== Sys2Proof/Certificates/Slice0/Obligations.lean ====
section
/-! DEFINITION. The statements for the provers. Each docstring names the rule of spec/ it formalises; where a statement rests on a
choice of the model it says so and names the log entry. A statement about `step` says whose turn it is (`nextTurn`), the model's own
schedule of 10_state.md R45 (log 5). -/

open Sys2Proof Sys2Proof.Machine

/-! ## Encoding -/

/-- R72, R74: a word decodes to a command exactly if it is that command's word, and the legal words are the integers 1 to 8. -/
def Obligations.DecodeInvertsEncode : Prop :=
  (∀ (w : Limb) (i : Instr), decode w = .ok i ↔ w = encode i) ∧
  (∀ w : Limb, (∃ i, decode w = .ok i) ↔ 1 ≤ w.toNat ∧ w.toNat ≤ 8)

/-- R74, R75: the eight command words of the table and some illegal words, as the table numbers their bits. -/
def Obligations.TableWordsDecode : Prop :=
  decodeTableWord 64 0x1 = some .divrem64 ∧ decodeTableWord 64 0x2 = some .divrem256 ∧
  decodeTableWord 64 0x3 = some .inv ∧ decodeTableWord 64 0x4 = some .invmod ∧
  decodeTableWord 64 0x5 = some .div ∧ decodeTableWord 64 0x6 = some .rem ∧
  decodeTableWord 64 0x7 = some .diva ∧ decodeTableWord 64 0x8 = some .rema ∧
  decodeTableWord 64 0x0 = none ∧ decodeTableWord 64 0x9 = none ∧ decodeTableWord 64 0x13 = none ∧
  decodeTableWord 64 0x8000000000000001 = none

/-- R72, R195: what a host write of any word to CMD does, outside the busy and the abort state: issue, or `IllegalCommand`. -/
def Obligations.CommandWriteVerdict : Prop :=
  ∀ (s : State) (w : Limb) (rest : List HostMove),
    nextTurn s = .host → s.host = .write 0x11 w :: rest → s.status.busy = false → s.status.abort = false →
    (w.toNat / 2 ^ 4 ≠ 0 ∨ w.toNat % 2 ^ 4 = 0 ∨ 9 ≤ w.toNat % 2 ^ 4 →
      step s = .next { dropTurn s with
        host := rest, status := { busy := false, valid := false, err := .illegalCommand, abort := false } }) ∧
    (∀ i : Instr, w.toNat / 2 ^ 4 = 0 → w.toNat % 2 ^ 4 = i.opcode.toNat →
      step s = .next { dropTurn s with
        host := rest
        flight := { op := i, sa := s.a, sb := s.b, sd := s.d }
        status := { busy := true, valid := false, err := .none, abort := false } })

/-! ## STATUS -/

/-- R27, R31, R33: STATUS as the host reads it, also while busy, bit by bit; bits 63:5 read as 0; a write to it is discarded. -/
def Obligations.StatusWordLayout : Prop :=
  ∀ s : State, ∃ w : Limb, memRead s 0x12 = some w ∧
    w.getLsbD 0 = s.status.busy ∧ w.getLsbD 1 = s.status.valid ∧
    w.toNat / 4 % 4 = (match s.status.err with
      | .none => 0
      | .divisionByZero => 1
      | .noInverseExists => 2
      | .illegalCommand => 3) ∧
    w.getLsbD 4 = s.status.abort ∧ (∀ k, 5 ≤ k → w.getLsbD k = false) ∧
    (∀ v, s.status.busy = false → memWrite s 0x12 v = some s)

/-- R44 (a) to (c), R40: the two invariants hold at the state after power-on, whatever the host wants to do and whoever moves. -/
def Obligations.InvariantsHoldAtReset : Prop :=
  ∀ (moves : List HostMove) (ts : List Turn),
    State.StatusInv { State.reset with host := moves, turns := ts } ∧
    State.SnapshotInv { State.reset with host := moves, turns := ts }

/-- R44: every step keeps the relations between the fields of STATUS, and STATUS then reads as one of the seven values. -/
def Obligations.StatusInvariantKept : Prop :=
  ∀ s : State, s.StatusInv → ∃ t, step s = .next t ∧ t.StatusInv ∧ t.status.word ∈ legalStatusWords

/-- R40, R60: while a command is in flight nothing changes the operands it was issued on, at any step. -/
def Obligations.SnapshotMatchesOperands : Prop :=
  ∀ s : State, s.SnapshotInv → ∃ t, step s = .next t ∧ t.SnapshotInv

/-- R191: no step ends in a fault or a refusal, from any state. -/
def Obligations.EveryStepHasNextState : Prop :=
  ∀ s : State, ∃ t, step s = .next t

/-! ## The register space -/

/-- R55, R59: a host read. Held while busy but for STATUS; otherwise the slot of the map; nothing of the unit changes. -/
def Obligations.HostReadOfEverySlot : Prop :=
  ∀ (s : State) (addr : LimbAddr) (rest : List HostMove), nextTurn s = .host → s.host = .read addr :: rest →
    (s.status.busy = true → addr ≠ 0x12 → step s = .next (dropTurn s)) ∧
    (s.status.busy = false ∨ addr = 0x12 →
      ∃ v, step s = .next { dropTurn s with host := rest, seen := v :: s.seen } ∧
        (∀ i : Fin 4, addr.toNat = i → v = limb s.a i) ∧ (∀ i : Fin 4, addr.toNat = 0x04 + i → v = limb s.b i) ∧
        (∀ i : Fin 4, addr.toNat = 0x08 + i → v = limb s.q i) ∧ (∀ i : Fin 4, addr.toNat = 0x0C + i → v = limb s.r i) ∧
        (addr = 0x10 → v = s.d) ∧ (addr = 0x11 → v = 0) ∧ (addr = 0x12 → v = s.status.word) ∧ (0x13 ≤ addr.toNat → v = 0))

/-- R56: a host write. Held while busy, discarded in the abort state; otherwise it changes one limb of `A` or `B`, or `D`, or nothing.
A write to CMD is `CommandWriteVerdict`. -/
def Obligations.HostWriteOfEverySlot : Prop :=
  ∀ (s : State) (addr : LimbAddr) (v : Limb) (rest : List HostMove), nextTurn s = .host → s.host = .write addr v :: rest →
    (s.status.busy = true → step s = .next (dropTurn s)) ∧
    (s.status.busy = false → s.status.abort = true → step s = .next { dropTurn s with host := rest }) ∧
    (s.status.busy = false → s.status.abort = false →
      (∀ i : Fin 4, addr.toNat = i → ∃ x : Word, step s = .next { dropTurn s with host := rest, a := x } ∧
        ∀ k : Fin 4, limb x k = if k = i then v else limb s.a k) ∧
      (∀ i : Fin 4, addr.toNat = 0x04 + i → ∃ x : Word, step s = .next { dropTurn s with host := rest, b := x } ∧
        ∀ k : Fin 4, limb x k = if k = i then v else limb s.b k) ∧
      (addr = 0x10 → step s = .next { dropTurn s with host := rest, d := v }) ∧
      (8 ≤ addr.toNat → addr ≠ 0x10 → addr ≠ 0x11 → step s = .next { dropTurn s with host := rest }))

/-- R57: the reserved slots, in every state in which the access is not held (the abort state among them). -/
def Obligations.ReservedSlots : Prop :=
  ∀ (s : State) (addr : LimbAddr) (v : Limb), 0x13 ≤ addr.toNat → s.status.busy = false →
    memRead s addr = some 0 ∧ memWrite s addr v = some s

/-- R58: access rights. `Q`, `R`, STATUS are read only, CMD reads as 0, `A`, `B`, `D` read back what was written. -/
def Obligations.AccessRights : Prop :=
  ∀ (s : State) (addr : LimbAddr) (v : Limb), s.status.busy = false →
    ((8 ≤ addr.toNat ∧ addr.toNat < 16) ∨ addr = 0x12 → memWrite s addr v = some s) ∧
    memRead s 0x11 = some 0 ∧
    (s.status.abort = false → addr.toNat < 8 ∨ addr = 0x10 →
      ∃ t, memWrite s addr v = some t ∧ memRead t addr = some v ∧
        ∀ other : LimbAddr, other ≠ addr → memRead t other = memRead s other)

/-- R60: the hold. A held access changes nothing and stays pending through the host's turns; the completion and an asynchronous reset
leave it pending and lift the hold. -/
def Obligations.HeldAccessStaysPending : Prop :=
  ∀ (s : State) (m : HostMove) (rest : List HostMove), s.status.busy = true → s.host = m :: rest →
    ((∃ addr, addr ≠ 0x12 ∧ m = .read addr) ∨ ∃ addr v, m = .write addr v) →
    (nextTurn s = .host → step s = .next (dropTurn s)) ∧
    (nextTurn s = .unit ∨ nextTurn s = .reset →
      ∃ t, step s = .next t ∧ t.host = m :: rest ∧ t.seen = s.seen ∧ t.status.busy = false)

/-- R52, R78: `LDA x` and `LDB y` in an idle unit load the whole values and change nothing else; `RDA` then reads the limbs of `x`, least
significant first (`seen` holds the newest value first, log 6). -/
def Obligations.LoadAndReadBackWord : Prop :=
  ∀ (s : State) (x y : Word) (rest : List HostMove), s.status.busy = false → s.status.abort = false → s.turns = [] →
    s.host = lda x ++ ldb y ++ rda ++ rest →
    core.run 8 s = .next { s with a := x, b := y, host := rda ++ rest } ∧
    core.run 12 s = .next { s with
      a := x, b := y, host := rest, seen := [limb x 3, limb x 2, limb x 1, limb x 0] ++ s.seen }

/-- R78: WAIT reads STATUS, never held, and is done when the value read has bit 0 equal to 0. Holding it as one move is the model's
(DEDUCED, log 8). -/
def Obligations.WaitPollsStatus : Prop :=
  ∀ (s : State) (rest : List HostMove), nextTurn s = .host → s.host = .wait :: rest →
    (s.status.busy = true → step s = .next { dropTurn s with seen := s.status.word :: s.seen }) ∧
    (s.status.busy = false → step s = .next { dropTurn s with host := rest, seen := s.status.word :: s.seen })

/-! ## Issue and completion -/

/-- R40, completion: while `BUSY = 1` the unit's turn is exactly the meaning of the command in flight. With `BUSY = 0` the unit has no
enabled step; that its turn then only uses up the schedule is the model's own stuttering step (DESIGN CHOICE, log 9; the schedule is
log 5). -/
def Obligations.UnitTurnRunsCommandInFlight : Prop :=
  ∀ s : State, nextTurn s = .unit →
    (s.status.busy = true → step s = exec s.flight.op (dropTurn s)) ∧ (s.status.busy = false → step s = .next (dropTurn s))

/-- R40, R72: the decoded command is the one that runs. Where no turn is scheduled (log 5) a CMD write whose word decodes to `i` is
followed at once by `i`'s completion, on the operands as they stood. -/
def Obligations.DecodedCommandRuns : Prop :=
  ∀ (s : State) (w : Limb) (i : Instr) (rest : List HostMove), s.status.busy = false → s.status.abort = false → s.turns = [] →
    s.host = .write 0x11 w :: rest → decode w = .ok i →
    core.run 2 s = exec i { s with
      host := rest
      flight := { op := i, sa := s.a, sb := s.b, sd := s.d }
      status := { busy := true, valid := false, err := .none, abort := false } }

/-- R225: no wait is needed. Where no turn is scheduled (log 5), a CMD write followed by a read of any slot answers that slot as the
command's completion leaves it. -/
def Obligations.ReadAfterCommandSeesResult : Prop :=
  ∀ (s : State) (i : Instr) (addr : LimbAddr) (rest : List HostMove), s.status.busy = false → s.status.abort = false →
    s.turns = [] → s.host = .write 0x11 (encode i) :: .read addr :: rest →
    ∃ t, exec i { s with
        host := .read addr :: rest
        flight := { op := i, sa := s.a, sb := s.b, sd := s.d }
        status := { busy := true, valid := false, err := .none, abort := false } } = .next t ∧
      core.run 3 s = .next { t with host := rest, seen := readSlot t addr :: s.seen }

/-- R231: a command in flight completes. If neither the schedule nor the host resets, then after finitely many steps, all of which
leave the data registers and the in-flight record alone, the unit's turn runs the command and `BUSY` falls. The default turn when the
schedule is used up is the model's fairness (DESIGN CHOICE, log 5). -/
def Obligations.EveryCommandCompletes : Prop :=
  ∀ s : State, s.status.busy = true → Turn.reset ∉ s.turns → HostMove.reset ∉ s.host →
    ∃ k u t, k ≤ s.turns.length ∧ core.run k s = .next u ∧ u.status = s.status ∧ u.flight = s.flight ∧ State.SameData s u ∧
      step u = exec s.flight.op (dropTurn u) ∧ step u = .next t ∧ t.status.busy = false

/-- R21 to R25: which command may write which data register; a completion that gives no result writes none (R193, R194, R200). -/
def Obligations.RegisterWriteTable : Prop :=
  ∀ (i : Instr) (s : State), ∃ t, exec i s = .next t ∧ t.status.busy = false ∧ State.SameOwn s t ∧
    t.b = s.b ∧ t.d = s.d ∧
    (writesQ i = false → t.q = s.q) ∧ (writesR i = false → t.r = s.r) ∧ (writesA i = false → t.a = s.a) ∧
    (t.status.valid = false → State.SameData s t) ∧ (t.status.valid = true → t.status.err = .none)

/-- R34, R39: what a command computes depends on its snapshot only: not on STATUS, not on the operand registers as they stand, not on
any hidden register. -/
def Obligations.ResultDependsOnSnapshotOnly : Prop :=
  ∀ (i : Instr) (s u : State), s.sa = u.sa → s.sb = u.sb → s.sd = u.sd →
    ∃ t v, exec i s = .next t ∧ exec i u = .next v ∧ t.status.valid = v.status.valid ∧ t.status.err = v.status.err ∧
      (t.status.valid = true →
        (writesQ i = true → t.q = v.q) ∧ (writesR i = true → t.r = v.r) ∧ (writesA i = true → t.a = v.a))

/-- R36 to R39: the hidden datapath registers are never observable: two states that differ only in them step to two such states. -/
def Obligations.HiddenRegistersUnobservable : Prop :=
  ∀ s u : State, State.SameVisible s u → ∃ t v, step s = .next t ∧ step u = .next v ∧ State.SameVisible t v

/-- R35: the in-flight record is dead while `BUSY = 0`: two idle states that differ only in it step alike; afterwards either they still
differ only in it or they are equal. -/
def Obligations.IdleRecordIsDead : Prop :=
  ∀ (s : State) (f : InFlight), s.status.busy = false →
    ∃ t v, step s = .next t ∧ step { s with flight := f } = .next v ∧
      (v = t ∨ (t.status.busy = false ∧ v = { t with flight := f }))

/-! ## Short division -/

/-- R91, R93: the primitive under its precondition: the unique Euclidean pair, both halves in 64 bits. -/
def Obligations.PrimitiveDivideContract : Prop :=
  ∀ h l d q r : Limb, d ≠ 0 → h < d →
    (div2by1 h l d = (q, r) ↔ h.toNat * 2 ^ 64 + l.toNat = q.toNat * d.toNat + r.toNat ∧ r.toNat < d.toNat)

/-- R94, R103, R120: the two users of the primitive stay inside its precondition. The limb chain, with the carry 0 of DIVREM64 and
with the staged fifth limb that long division hands it (R115), is these four uses: each is inside the precondition, divides its window,
and the last remainder and the four quotient limbs are what the chain gives. The trial digit starts from the estimate, which, the
divisor's top limb having its top bit set, uses the primitive only inside the precondition. -/
def Obligations.PrimitiveUsedInsideContract : Prop :=
  (∀ (a : Word) (d : Limb), d ≠ 0 →
    let x3 := div2by1 0 (limb a 3) d
    let x2 := div2by1 x3.2 (limb a 2) d
    let x1 := div2by1 x2.2 (limb a 1) d
    let x0 := div2by1 x1.2 (limb a 0) d
    (Div2by1Pre 0 d ∧ Div2by1Pre x3.2 d ∧ Div2by1Pre x2.2 d ∧ Div2by1Pre x1.2 d) ∧
    ((limb a 3).toNat = x3.1.toNat * d.toNat + x3.2.toNat ∧
      x3.2.toNat * 2 ^ 64 + (limb a 2).toNat = x2.1.toNat * d.toNat + x2.2.toNat ∧
      x2.2.toNat * 2 ^ 64 + (limb a 1).toNat = x1.1.toNat * d.toNat + x1.2.toNat ∧
      x1.2.toNat * 2 ^ 64 + (limb a 0).toNat = x0.1.toNat * d.toNat + x0.2.toNat) ∧
    limbChain 0 a d = { quot := ofLimbs x0.1 x1.1 x2.1 x3.1, rem := x0.2 } ∧
    limbChain (limb (stage a) 4) a d = { quot := ofLimbs x0.1 x1.1 x2.1 x3.1, rem := x0.2 }) ∧
  (∀ top mid v : Limb, 2 ^ 63 ≤ v.toNat →
    (v ≤ top → trialEstimate top mid v = (2 ^ 64 - 1, mid.toNat + v.toNat)) ∧
    (¬ v ≤ top → Div2by1Pre top v ∧ trialEstimate top mid v = ((div2by1 top mid v).1.toNat, (div2by1 top mid v).2.toNat))) ∧
  (∀ (b : Word) (j : Nat) (num : Scratch), 2 ≤ (siglimbs b).val →
    let n := (siglimbs b).val
    let v := b <<< shiftCount b n
    let e := trialEstimate (limb num (j + n)) (limb num (j + n - 1)) (limb v (n - 1))
    2 ^ 63 ≤ (limb v (n - 1)).toNat ∧
    trialDigit n v j num = (trialCorrect (limb v (n - 1)) (limb v (n - 2)) (limb num (j + n - 2)) Config.correctionFuel e.1 e.2).1)

/-- R101: DIVREM64, both outcomes. -/
def Obligations.ShortDivisionResult : Prop :=
  ∀ s : State,
    (s.sd = 0 →
      exec .divrem64 s = .next { s with
        status := { busy := false, valid := false, err := .divisionByZero, abort := s.status.abort } }) ∧
    (s.sd ≠ 0 → ∃ q r : Word, q.toNat = s.sa.toNat / s.sd.toNat ∧
      (limb r 0).toNat = s.sa.toNat % s.sd.toNat ∧ limb r 1 = 0 ∧ limb r 2 = 0 ∧ limb r 3 = 0 ∧
      exec .divrem64 s = .next { s with
        q := q, r := r, status := { busy := false, valid := true, err := .none, abort := s.status.abort } })

/-! ## Long division -/

/-- R111: DIVREM256, both outcomes. `w` is what it leaves in the hidden scratch (R36), about which nothing is said. -/
def Obligations.LongDivisionResult : Prop :=
  ∀ s : State,
    (s.sb = 0 → ∃ w : DivScratch,
      exec .divrem256 s = .next { s with
        scratch := w, status := { busy := false, valid := false, err := .divisionByZero, abort := s.status.abort } }) ∧
    (s.sb ≠ 0 → ∃ (q r : Word) (w : DivScratch), q.toNat = s.sa.toNat / s.sb.toNat ∧ r.toNat = s.sa.toNat % s.sb.toNat ∧
      exec .divrem256 s = .next { s with
        scratch := w, q := q, r := r
        status := { busy := false, valid := true, err := .none, abort := s.status.abort } })

/-- R112: the effective width is the place of the highest non-zero limb plus one, not a count of non-zero limbs. -/
def Obligations.EffectiveDivisorWidth : Prop :=
  ∀ b : Word,
    (limb b 3 ≠ 0 → siglimbs b = 4) ∧
    (limb b 3 = 0 → limb b 2 ≠ 0 → siglimbs b = 3) ∧
    (limb b 3 = 0 → limb b 2 = 0 → limb b 1 ≠ 0 → siglimbs b = 2) ∧
    (limb b 3 = 0 → limb b 2 = 0 → limb b 1 = 0 → limb b 0 ≠ 0 → siglimbs b = 1) ∧
    (b = 0 → siglimbs b = 0) ∧ b.toNat < 2 ^ (64 * (siglimbs b).val)

/-- R116, R117: the normalised divisor, limb by limb, and that its top bit is set, in the branches `n` = 2, 3, 4. -/
def Obligations.NormalisedDivisorLimbs : Prop :=
  ∀ (b : Word) (n s : Nat), n = (siglimbs b).val → 2 ≤ n → s = shiftCount b n →
    s ≤ 63 ∧ (b <<< s).toNat = b.toNat * 2 ^ s ∧ (b <<< s).toNat < 2 ^ (64 * n) ∧
    2 ^ 63 ≤ (limb (b <<< s) (n - 1)).toNat ∧
    (limb (b <<< s) 0).toNat = (limb b 0).toNat * 2 ^ s % 2 ^ 64 ∧
    (0 < s → ∀ i, 1 ≤ i → i < n →
      (limb (b <<< s) i).toNat = ((limb b i).toNat * 2 ^ s + (limb b (i - 1)).toNat / 2 ^ (64 - s)) % 2 ^ 64) ∧
    (s = 0 → ∀ i, limb (b <<< s) i = limb b i)

/-- R114, R118: the staged and shifted numerator, limb by limb; the fifth limb takes the bits shifted out. -/
def Obligations.NormalisedNumeratorLimbs : Prop :=
  ∀ (a : Word) (s : Nat), s ≤ 63 →
    (stage a <<< s).toNat = a.toNat * 2 ^ s ∧ (limb (stage a <<< s) 4).toNat < 2 ^ s ∧
    (∀ i, i < 4 → limb (stage a) i = limb a i) ∧ limb (stage a) 4 = 0 ∧
    (s = 0 → limb (stage a <<< s) 4 = 0) ∧
    (0 < s → (limb (stage a <<< s) 4).toNat = (limb a 3).toNat / 2 ^ (64 - s) ∧
      ∀ i, 1 ≤ i → i < 4 →
        (limb (stage a <<< s) i).toNat = ((limb a i).toNat * 2 ^ s + (limb a (i - 1)).toNat / 2 ^ (64 - s)) % 2 ^ 64) ∧
    (limb (stage a <<< s) 0).toNat = (limb a 0).toNat * 2 ^ s % 2 ^ 64

/-- R120, R126: with a normalised divisor of `n` limbs and a window below `V * 2^64`, the corrected trial digit is the true digit or one
too large, and for `n = 2` it is exact; more than two corrections change nothing. -/
def Obligations.TrialDigitError : Prop :=
  ∀ (n : Nat) (v : Word) (j : Nat) (num : Scratch), 2 ≤ n → j + n ≤ 4 → v.toNat < 2 ^ (64 * n) →
    2 ^ 63 ≤ (limb v (n - 1)).toNat → limbs num j (n + 1) < v.toNat * 2 ^ 64 →
    limbs num j (n + 1) / v.toNat ≤ trialDigit n v j num ∧ trialDigit n v j num ≤ limbs num j (n + 1) / v.toNat + 1 ∧
    (n = 2 → trialDigit n v j num = limbs num j (n + 1) / v.toNat) ∧
    (∀ extra, (trialCorrect (limb v (n - 1)) (limb v (n - 2)) (limb num (j + n - 2)) (2 + extra)
        (trialEstimate (limb num (j + n)) (limb num (j + n - 1)) (limb v (n - 1))).1
        (trialEstimate (limb num (j + n)) (limb num (j + n - 1)) (limb v (n - 1))).2).1 = trialDigit n v j num)

/-- R121 to R123: one iteration leaves `W mod V` in the low `n` limbs of the window, the digit `floor(W / V)` in the limb above, and
every limb outside the window alone. -/
def Obligations.DigitStepDividesWindow : Prop :=
  ∀ (n : Nat) (v : Word) (j : Nat) (num : Scratch), 2 ≤ n → j + n ≤ 4 → v.toNat < 2 ^ (64 * n) →
    2 ^ 63 ≤ (limb v (n - 1)).toNat → limbs num j (n + 1) < v.toNat * 2 ^ 64 →
    limbs (digitStep n v j num) j n = limbs num j (n + 1) % v.toNat ∧
    (limb (digitStep n v j num) (j + n)).toNat = limbs num j (n + 1) / v.toNat ∧
    ∀ k, k < 5 → k < j ∨ j + n < k → limb (digitStep n v j num) k = limb num k

/-- R115, R230: a 64-bit divisor in `B` gives DIVREM256 the quotient, the remainder and the status DIVREM64 has with it in `D`, zero
included. -/
def Obligations.ShortAndLongDivisionAgree : Prop :=
  ∀ s : State, s.sb.toNat = s.sd.toNat →
    ∃ t u, exec .divrem64 s = .next t ∧ exec .divrem256 s = .next u ∧ t.q = u.q ∧ t.r = u.r ∧ t.status = u.status

/-! ## Ring inverse -/

/-- R141: INV, both outcomes; the inverse is the only one. `h` is what it leaves in the hidden Hensel register (R37), about which nothing
is said. -/
def Obligations.RingInverseResult : Prop :=
  ∀ s : State,
    (s.sa.toNat % 2 = 0 →
      exec .inv s = .next { s with
        status := { busy := false, valid := false, err := .noInverseExists, abort := s.status.abort } }) ∧
    (s.sa.toNat % 2 = 1 → ∃ x h : Word, s.sa.toNat * x.toNat % 2 ^ 256 = 1 ∧
      (∀ y : Word, s.sa.toNat * y.toNat % 2 ^ 256 = 1 → y = x) ∧
      exec .inv s = .next { s with
        q := x, hensel := h, status := { busy := false, valid := true, err := .none, abort := s.status.abort } })

/-- R143 to R146: the precision chain 4, 8, 16, 32, 64, 128, 256 of the engine, each value written as its rule gives it. -/
def Obligations.HenselPrecisionChain : Prop :=
  ∀ a : Word, a.toNat % 2 = 1 →
    let c : Limb := limb a 0
    let r0 : Limb := (3 * c) ^^^ 2
    let r1 : Limb := r0 * (2 - c * r0)
    let r2 : Limb := r1 * (2 - c * r1)
    let r3 : Limb := r2 * (2 - c * r2)
    let r4 : Limb := r3 * (2 - c * r3)
    let c128 : BitVec 128 := a.setWidth 128
    let z4 : BitVec 128 := r4.setWidth 128
    let r5 : BitVec 128 := z4 * (2 - c128 * z4)
    let z5 : Word := r5.setWidth 256
    let r6 : Word := z5 * (2 - a * z5)
    c.toNat * r0.toNat % 2 ^ 4 = 1 ∧ c.toNat * r1.toNat % 2 ^ 8 = 1 ∧ c.toNat * r2.toNat % 2 ^ 16 = 1 ∧
    c.toNat * r3.toNat % 2 ^ 32 = 1 ∧ c.toNat * r4.toNat % 2 ^ 64 = 1 ∧ c128.toNat * r5.toNat % 2 ^ 128 = 1 ∧
    a.toNat * r6.toNat % 2 ^ 256 = 1 ∧ henselInverse a = r6

/-- R151: `INV` applied to its own result gives back the value. -/
def Obligations.RingInverseInvolution : Prop :=
  ∀ s : State, s.sa.toNat % 2 = 1 →
    ∃ t u, exec .inv s = .next t ∧ exec .inv (issue .inv { t with a := t.q }) = .next u ∧ u.status.valid = true ∧ u.q = s.sa

/-! ## Modular inverse -/

/-- R156: INVMOD, its three outcomes. `w` and `e` are what it leaves in the hidden registers (R36, R38), about which nothing is said. -/
def Obligations.ModularInverseResult : Prop :=
  ∀ s : State,
    (s.sb = 0 →
      exec .invmod s = .next { s with
        status := { busy := false, valid := false, err := .noInverseExists, abort := s.status.abort } }) ∧
    (s.sb ≠ 0 → Nat.gcd s.sa.toNat s.sb.toNat ≠ 1 → ∃ (w : DivScratch) (e : Euclid),
      exec .invmod s = .next { s with
        scratch := w, euclid := e
        status := { busy := false, valid := false, err := .noInverseExists, abort := s.status.abort } }) ∧
    (s.sb ≠ 0 → Nat.gcd s.sa.toNat s.sb.toNat = 1 → ∃ (x : Word) (w : DivScratch) (e : Euclid),
      x.toNat < s.sb.toNat ∧ ((s.sa.toNat : ℤ) * x.toNat - 1) % s.sb.toNat = 0 ∧
      (∀ y : Word, y.toNat < s.sb.toNat → ((s.sa.toNat : ℤ) * y.toNat - 1) % s.sb.toNat = 0 → y = x) ∧
      exec .invmod s = .next { s with
        scratch := w, euclid := e, q := x
        status := { busy := false, valid := true, err := .none, abort := s.status.abort } })

/-- R164: after any number of iterations of the Euclid loop the next cofactor, as an integer, is at most the modulus, so the 256-bit
multiply and add do not wrap. -/
def Obligations.EuclidCofactorsDoNotWrap : Prop :=
  ∀ (old : DivScratch) (a m : Word) (k : Nat), m ≠ 0 →
    let x := euclidLoop k (euclidLoad old a m)
    x.regs.r1 ≠ 0 →
      x.regs.t0.toNat + x.regs.r0.toNat / x.regs.r1.toNat * x.regs.t1.toNat ≤ m.toNat ∧
      (euclidStep x).regs.t1.toNat = x.regs.t0.toNat + x.regs.r0.toNat / x.regs.r1.toNat * x.regs.t1.toNat

/-- R159, R168: the Euclid loop has ended after 368 iterations, for every value and every non-zero modulus, at the gcd; and the pair of
consecutive Fibonacci numbers the rule names needs all 368. The bound is the spec's own inference (Lamé); no result rests on it. -/
def Obligations.EuclidLoopStepBound : Prop :=
  (∀ (old : DivScratch) (a m : Word), m ≠ 0 →
    (euclidLoop 368 (euclidLoad old a m)).regs.r1 = 0 ∧
    (euclidLoop 368 (euclidLoad old a m)).regs.r0.toNat = Nat.gcd a.toNat m.toNat) ∧
  ∀ old : DivScratch,
    (euclidLoop 367 (euclidLoad old 0x814675988eb7041005ee9f4355a59a00629b7c0123408b65d25f59ec1a328e62
      0xd12bf5c7f45a49f54fdf4e79a339eb28e1cc739052cbfa4bcc70eb22d7c28187)).regs.r1 ≠ 0

/-- R166: for a modulus that is a power of two and an odd value, INVMOD gives the ring inverse of INV reduced modulo it. -/
def Obligations.PowerOfTwoModulus : Prop :=
  ∀ (s : State) (k : Nat), k < 256 → s.sb.toNat = 2 ^ k → s.sa.toNat % 2 = 1 →
    ∃ t u, exec .invmod s = .next t ∧ exec .inv s = .next u ∧ t.status.valid = true ∧ u.status.valid = true ∧
      t.q.toNat = u.q.toNat % 2 ^ k

/-! ## Operator commands. They are stated in the states in which a completion is taken (R40, R44): busy, and so not aborted, where the
rules R176 to R179 and R181 agree on ABORT (log 12). `w` is the hidden scratch (R36). -/

/-- R176: DIV: the quotient to `Q`, or the abort. -/
def Obligations.DivResult : Prop :=
  ∀ s : State, s.StatusInv → s.status.busy = true →
    (s.sb = 0 → ∃ w : DivScratch,
      exec .div s = .next { s with
        scratch := w, status := { busy := false, valid := false, err := .divisionByZero, abort := true } }) ∧
    (s.sb ≠ 0 → ∃ (q : Word) (w : DivScratch), q.toNat = s.sa.toNat / s.sb.toNat ∧
      exec .div s = .next { s with
        scratch := w, q := q, status := { busy := false, valid := true, err := .none, abort := false } })

/-- R177: REM: the remainder to `R`, or the abort. -/
def Obligations.RemResult : Prop :=
  ∀ s : State, s.StatusInv → s.status.busy = true →
    (s.sb = 0 → ∃ w : DivScratch,
      exec .rem s = .next { s with
        scratch := w, status := { busy := false, valid := false, err := .divisionByZero, abort := true } }) ∧
    (s.sb ≠ 0 → ∃ (r : Word) (w : DivScratch), r.toNat = s.sa.toNat % s.sb.toNat ∧
      exec .rem s = .next { s with
        scratch := w, r := r, status := { busy := false, valid := true, err := .none, abort := false } })

/-- R178: DIVA: the receiver `A` takes the quotient, or keeps its value at the abort. -/
def Obligations.DivaResult : Prop :=
  ∀ s : State, s.StatusInv → s.status.busy = true →
    (s.sb = 0 → ∃ w : DivScratch,
      exec .diva s = .next { s with
        scratch := w, status := { busy := false, valid := false, err := .divisionByZero, abort := true } }) ∧
    (s.sb ≠ 0 → ∃ (x : Word) (w : DivScratch), x.toNat = s.sa.toNat / s.sb.toNat ∧
      exec .diva s = .next { s with
        scratch := w, a := x, status := { busy := false, valid := true, err := .none, abort := false } })

/-- R179: REMA: the receiver `A` takes the remainder, or keeps its value at the abort. -/
def Obligations.RemaResult : Prop :=
  ∀ s : State, s.StatusInv → s.status.busy = true →
    (s.sb = 0 → ∃ w : DivScratch,
      exec .rema s = .next { s with
        scratch := w, status := { busy := false, valid := false, err := .divisionByZero, abort := true } }) ∧
    (s.sb ≠ 0 → ∃ (x : Word) (w : DivScratch), x.toNat = s.sa.toNat % s.sb.toNat ∧
      exec .rema s = .next { s with
        scratch := w, a := x, status := { busy := false, valid := true, err := .none, abort := false } })

/-- R200: the abort trap of the four operator commands: STATUS alone is written, and it then reads 0x14. -/
def Obligations.AbortTrapEntry : Prop :=
  ∀ (i : Instr) (s : State), (i = .div ∨ i = .rem ∨ i = .diva ∨ i = .rema) → s.sb = 0 →
    ∃ w : DivScratch,
      exec i s = .next { s with
        scratch := w, status := { busy := false, valid := false, err := .divisionByZero, abort := true } } ∧
      (Status.word { busy := false, valid := false, err := .divisionByZero, abort := true }) = 0x14

/-- R183: a second REMA with an unchanged `B` leaves `A` as the first left it. -/
def Obligations.RemaIdempotent : Prop :=
  ∀ s : State, s.sb = s.b → s.sb ≠ 0 →
    ∃ t u, exec .rema s = .next t ∧ exec .rema (issue .rema t) = .next u ∧ u.a = t.a ∧ u.status.valid = true

/-! ## Exceptions, the abort state, reset -/

/-- R191, R193, R194: the checked commands. Each of their causes, on the snapshot, gives an absent result with its own code, and STATUS
is all that changes of what the host can see. -/
def Obligations.AbsentResults : Prop :=
  ∀ (i : Instr) (s : State) (e : ErrKind),
    (i = .divrem64 ∧ s.sd = 0 ∧ e = .divisionByZero) ∨ (i = .divrem256 ∧ s.sb = 0 ∧ e = .divisionByZero) ∨
    (i = .inv ∧ s.sa.toNat % 2 = 0 ∧ e = .noInverseExists) ∨
    (i = .invmod ∧ (s.sb = 0 ∨ Nat.gcd s.sa.toNat s.sb.toNat ≠ 1) ∧ e = .noInverseExists) →
    ∃ t, exec i s = .next t ∧ State.SameVisible t { s with
      status := { busy := false, valid := false, err := e, abort := s.status.abort } }

/-- R61, R203: the abort state. STATUS and every register stay as they are; writes are discarded, reads answer; only a reset changes
anything, and leaves STATUS at 0x00 (R220). WAIT (R78) held as one move is the model's (DEDUCED, log 8). The unit has no enabled step
(R203 (d)); that its turn, and a host's turn with no move, only use up the schedule is the model's own stuttering step (DESIGN CHOICE,
log 9). -/
def Obligations.AbortStateOnlyResetLeaves : Prop :=
  ∀ s : State, s.StatusInv → s.status.abort = true →
    (nextTurn s = .unit → step s = .next (dropTurn s)) ∧
    (nextTurn s = .host →
      (s.host = [] → step s = .next (dropTurn s)) ∧
      (∀ addr v rest, s.host = .write addr v :: rest → step s = .next { dropTurn s with host := rest }) ∧
      (∀ addr rest, s.host = .read addr :: rest →
        step s = .next { dropTurn s with host := rest, seen := readSlot s addr :: s.seen }) ∧
      (∀ rest, s.host = .wait :: rest → step s = .next { dropTurn s with host := rest, seen := 0x14 :: s.seen }) ∧
      (∀ rest, s.host = .reset :: rest → ∃ t, step s = .next t ∧ t.status.word = 0)) ∧
    (nextTurn s = .reset → ∃ t, step s = .next t ∧ t.status.word = 0)

/-- R220, R222: the `Reset` step as an asynchronous event, in every state: STATUS reads 0x00, no command is in flight, and an access
that was held stays pending; if the next turn is the host's (whose turn it is stands in the model's own schedule, log 5), a read is then
answered and a CMD write issues, both in the post-reset state. Nothing is said of the data registers (free values, log 2). -/
def Obligations.AsynchronousReset : Prop :=
  ∀ s : State, nextTurn s = .reset →
    ∃ t, step s = .next t ∧ t.status = { busy := false, valid := false, err := .none, abort := false } ∧
      t.status.word = 0 ∧ t.host = s.host ∧ t.seen = s.seen ∧ t.turns = s.turns.tail ∧
      (nextTurn t = .host →
        (∀ addr rest, s.host = .read addr :: rest →
          step t = .next { dropTurn t with host := rest, seen := readSlot t addr :: t.seen }) ∧
        (∀ i rest, s.host = .write 0x11 (encode i) :: rest → step t = .next { dropTurn t with
          host := rest
          flight := { op := i, sa := t.a, sb := t.b, sd := t.d }
          status := { busy := true, valid := false, err := .none, abort := false } }))

/-- R77, R220, R221: the host's RESET line, in every state, the abort state among them; afterwards a write is accepted again. -/
def Obligations.HostResetLine : Prop :=
  ∀ (s : State) (rest : List HostMove), nextTurn s = .host → s.host = .reset :: rest →
    ∃ t, step s = .next t ∧ t.status.word = 0 ∧ t.host = rest ∧ t.seen = s.seen ∧ t.turns = s.turns.tail ∧
      ∀ v, memWrite t 0x10 v = some { t with d := v }

/-- R43: STATUS after power-on. The data registers' power-on zeros are the model's (DESIGN CHOICE, log 1), so none is stated. -/
def Obligations.PowerOnStatus : Prop :=
  State.reset.status = { busy := false, valid := false, err := .none, abort := false } ∧ memRead State.reset 0x12 = some 0

/-- R32, R34: a completion leaves ABORT at 1 exactly if the command is an operator command with a zero divisor in its snapshot. -/
def Obligations.AbortSetExactlyByOperators : Prop :=
  ∀ (i : Instr) (s : State), s.StatusInv → s.status.busy = true →
    ∃ t, exec i s = .next t ∧
      (t.status.abort = true ↔ (i = .div ∨ i = .rem ∨ i = .diva ∨ i = .rema) ∧ s.sb = 0)

/-! ## Why the datapaths compute their results -/

/-- R125: the digit loop of Algorithm D. (a) Scaling by `2^s` keeps the quotient and multiplies the remainder. (b) The invariant
`DigitInv` holds before the first iteration. (c), (d) Under it the window is below `V * 2^64`, its top limb is at most the divisor's,
and one iteration (whose digit is DigitStepDividesWindow) keeps it for the next limb. (e) At limb 0 it says that the upper limbs are the
quotient and the lower ones the remainder times `2^s`; the loop, and the unit's division whatever its scratch held, end there. -/
def Obligations.DigitLoopInvariant : Prop :=
  ∀ (a b : Word) (n s : Nat), n = (siglimbs b).val → 2 ≤ n → s = shiftCount b n →
    let v := b <<< s
    let num0 := stage a <<< s
    (num0.toNat / v.toNat = a.toNat / b.toNat ∧ num0.toNat % v.toNat = a.toNat % b.toNat * 2 ^ s) ∧
    DigitInv n v num0 (5 - n) num0 ∧
    (∀ (j : Nat) (num : Scratch), j + n ≤ 4 → DigitInv n v num0 (j + 1) num →
      limbs num j (n + 1) < v.toNat * 2 ^ 64 ∧ limb num (j + n) ≤ limb v (n - 1) ∧
      DigitInv n v num0 j (digitStep n v j num)) ∧
    (∀ num : Scratch, DigitInv n v num0 0 num →
      limbs num n (5 - n) = a.toNat / b.toNat ∧ limbs num 0 n = a.toNat % b.toNat * 2 ^ s) ∧
    DigitInv n v num0 0 (digitLoop n v (4 - n) num0) ∧
    ∀ old : DivScratch, DigitInv n v num0 0 (longDivide old a b).scratch.num

/-- R165: the Euclid pipeline. (a) Reducing the value changes neither the gcd nor the set of inverses. (b) The invariant `EuclidInv`
(`r_K ≡ t_K * a`, the sign of `t_K` in the parity) holds at the load and every iteration keeps it. (c) On exit `r0` is the gcd; if it is
1 the fix-up is `t_K mod m`, an inverse, and otherwise there is no result. (d) Two inverses in `[0, m)` are equal. -/
def Obligations.EuclidLoopInvariant : Prop :=
  ∀ a m : Word, m ≠ 0 →
    (Nat.gcd (a.toNat % m.toNat) m.toNat = Nat.gcd a.toNat m.toNat ∧
      ∀ x : Nat, a.toNat % m.toNat * x % m.toNat = 1 % m.toNat ↔ a.toNat * x % m.toNat = 1 % m.toNat) ∧
    (∀ old : DivScratch, EuclidInv a m (euclidLoad old a m).regs) ∧
    (∀ x : EuclidRun, EuclidInv a m x.regs → x.regs.r1 ≠ 0 → EuclidInv a m (euclidStep x).regs) ∧
    (∀ e : Euclid, EuclidInv a m e → e.r1 = 0 →
      e.r0.toNat = Nat.gcd a.toNat m.toNat ∧
      (Nat.gcd a.toNat m.toNat ≠ 1 → euclidFixup m e = none) ∧
      (Nat.gcd a.toNat m.toNat = 1 → ∃ x : Word, euclidFixup m e = some x ∧
        (x.toNat : ℤ) = euclidSign e.kOdd * e.t0.toNat % m.toNat ∧ a.toNat * x.toNat % m.toNat = 1 % m.toNat)) ∧
    ∀ x y : Nat, x < m.toNat → y < m.toNat → a.toNat * x % m.toNat = 1 % m.toNat → a.toNat * y % m.toNat = 1 % m.toNat → x = y
end

