-- ==== Sys2Proof/Laws/KnuthD.lean ====
section
/-! SUPPORT. The arithmetic of Knuth's Algorithm D over the naturals (spec 42_long_division.md R125, R126), apart from any register:
the estimate, the correction test and the digit loop's invariant. `B` is the limb base, `C` the weight of the window's third limb. -/

namespace Sys2Proof.Laws

/-- R125 (c): a trial digit that fails the correction test is above the true digit `W / V`. -/
theorem lt_of_test_fails {V2 vL C D3 wL qhat : Nat} (hwL : wL < C) (h : D3 < qhat * V2) :
    (D3 * C + wL) / (V2 * C + vL) < qhat := by
  apply Nat.div_lt_of_lt_mul
  have h1 : (D3 + 1) * C ≤ qhat * V2 * C := Nat.mul_le_mul_right C h
  nlinarith [Nat.zero_le (vL * qhat)]

/-- R126: a trial digit that passes the correction test exceeds the true digit by at most one, `V` being normalised. -/
theorem le_of_test_passes {B V2 vL C D3 wL qhat : Nat} (hvL : vL < C) (hB : B ≤ V2) (hq : qhat < B)
    (h : qhat * V2 ≤ D3) : qhat ≤ (D3 * C + wL) / (V2 * C + vL) + 1 := by
  have hC : 0 < C := by omega
  have hV : 0 < V2 * C + vL := by
    have : 0 < V2 := by omega
    positivity
  have hW := Nat.lt_mul_div_succ (D3 * C + wL) hV
  set q := (D3 * C + wL) / (V2 * C + vL) with hqdef
  by_contra hcon
  have hcon' : q + 2 ≤ qhat := by omega
  have h1 : qhat * V2 * C ≤ D3 * C := Nat.mul_le_mul_right C h
  have h2 : (q + 2) * (V2 * C + vL) ≤ qhat * (V2 * C + vL) := Nat.mul_le_mul_right _ hcon'
  have h3 : qhat * vL ≤ B * C := Nat.mul_le_mul (by omega) (by omega)
  have h4 : B * C ≤ V2 * C := Nat.mul_le_mul_right C hB
  nlinarith

/-- R120: the capped estimate of the top two window limbs by the top divisor limb is not below the true digit. -/
theorem digit_le_estimate {vT X D wL : Nat} (hwL : wL < X) (hvT : 0 < vT) (vL : Nat) :
    (D * X + wL) / (vT * X + vL) ≤ D / vT := by
  rw [Nat.le_div_iff_mul_le hvT]
  have hX : 0 < X := by omega
  have h := Nat.div_mul_le_self (D * X + wL) (vT * X + vL)
  set q := (D * X + wL) / (vT * X + vL)
  by_contra hcon
  have : (D + 1) * X ≤ q * vT * X := Nat.mul_le_mul_right X (by omega)
  nlinarith [Nat.zero_le (q * vL)]

/-- R119, R125 (d), (e): what is true of the buffer between two iterations: above the boundary `j + n` stand the digits found, below it
the part of the numerator still to be divided. `P` is `B^j`, `M` is `B^n`. -/
structure LoopInv (P M V num0 num : Nat) : Prop where
  split : num0 = num / (P * M) * V * P + num % (P * M)
  small : num % (P * M) < P * V

/-- R125: one iteration keeps the invariant: with `q`, `r` the quotient and remainder of the window by `V`, and the window replaced
by `r` below the digit `q`. -/
theorem LoopInv.step {B P M V num0 num num' : Nat} (hP : 0 < P) (hV : V < M) (hVpos : 0 < V)
    (h : LoopInv (P * B) M V num0 num)
    (hnum' : num' = num % P + (num / P % (B * M)) % V * P + (num / P % (B * M)) / V * (P * M) + num / (P * (B * M)) * (P * (B * M))) :
    LoopInv P M V num0 num' := by
  have hM : 0 < M := by omega
  have e1 : P * B * M = P * (B * M) := by ring
  obtain ⟨hs, hl⟩ := h
  rw [e1] at hs hl
  set W := num / P % (B * M) with hW
  set Q := num / (P * (B * M)) with hQ
  have hmm : num % (P * (B * M)) = num % P + P * W := Nat.mod_mul
  have hr : W % V < V := Nat.mod_lt _ hVpos
  have hlow : num % P < P := Nat.mod_lt _ hP
  have hwv : W = V * (W / V) + W % V := (Nat.div_add_mod W V).symm
  have hL : num % P + W % V * P < P * V := by
    have : (W % V + 1) * P ≤ V * P := Nat.mul_le_mul_right P hr
    nlinarith
  have hLM : num % P + W % V * P < P * M := lt_of_lt_of_le hL (Nat.mul_le_mul_left P hV.le)
  have hn : num' = (num % P + W % V * P) + P * M * (W / V + Q * B) := by rw [hnum']; ring
  have hdiv : num' / (P * M) = W / V + Q * B := by
    rw [hn, Nat.add_mul_div_left _ _ (by positivity), Nat.div_eq_of_lt hLM, Nat.zero_add]
  have hmod : num' % (P * M) = num % P + W % V * P := by
    rw [hn, Nat.add_mul_mod_self_left, Nat.mod_eq_of_lt hLM]
  refine ⟨?_, by rw [hmod]; exact hL⟩
  rw [hdiv, hmod, hs, hmm]
  calc Q * V * (P * B) + (num % P + P * W)
      = Q * V * (P * B) + (num % P + P * (V * (W / V) + W % V)) := by rw [← hwv]
    _ = _ := by ring

/-- R119: the window of an iteration is below `V * B`, so its digit is a limb. -/
theorem LoopInv.window_lt {B P M V num0 num : Nat}
    (h : LoopInv (P * B) M V num0 num) : num / P % (B * M) < V * B := by
  have e1 : P * B * M = P * (B * M) := by ring
  have hl := h.small
  rw [e1, Nat.mod_mul] at hl
  have : P * (num / P % (B * M)) < P * (V * B) := by
    calc _ ≤ num % P + P * (num / P % (B * M)) := Nat.le_add_left _ _
      _ < P * B * V := hl
      _ = _ := by ring
  exact Nat.lt_of_mul_lt_mul_left this

end Sys2Proof.Laws
end

