-- ==== Sys2Proof/Laws/Limbs.lean ====
section
/-! SUPPORT. Limbs: reading a limb after writing one, and a value as the sum of its limbs (spec 00_scope.md R12). -/

namespace Sys2Proof.Machine

/-- R12: a limb as an integer. -/
theorem limb_toNat {w : Nat} (x : BitVec w) (i : Nat) : (limb x i).toNat = x.toNat / 2 ^ (64 * i) % 2 ^ 64 := by
  simp [limb, BitVec.extractLsb'_toNat, Nat.shiftRight_eq_div_pow]

/-- R12: a 256-bit value is the sum of its four limbs. -/
theorem word_toNat_eq_limbs (x : Word) :
    x.toNat = (limb x 0).toNat + (limb x 1).toNat * 2 ^ 64 + (limb x 2).toNat * 2 ^ 128 + (limb x 3).toNat * 2 ^ 192 := by
  simp only [limb_toNat]
  have := x.isLt
  omega

/-- R12: the value of four limbs. -/
theorem ofLimbs_toNat (x0 x1 x2 x3 : Limb) :
    (ofLimbs x0 x1 x2 x3).toNat = x0.toNat + x1.toNat * 2 ^ 64 + x2.toNat * 2 ^ 128 + x3.toNat * 2 ^ 192 := by
  unfold ofLimbs
  simp only [BitVec.toNat_append]
  have h0 := x0.isLt
  have h1 := x1.isLt
  have h2 := x2.isLt
  have h32 : x3.toNat <<< 64 ||| x2.toNat = x3.toNat * 2 ^ 64 + x2.toNat := by
    rw [← Nat.shiftLeft_add_eq_or_of_lt h2, Nat.shiftLeft_eq]
  have h21 : (x3.toNat * 2 ^ 64 + x2.toNat) <<< 64 ||| x1.toNat = (x3.toNat * 2 ^ 64 + x2.toNat) * 2 ^ 64 + x1.toNat := by
    rw [← Nat.shiftLeft_add_eq_or_of_lt h1, Nat.shiftLeft_eq]
  rw [h32, h21, ← Nat.shiftLeft_add_eq_or_of_lt h0, Nat.shiftLeft_eq]
  omega

/-- Reading a limb of a value made of four limbs. -/
theorem limb_ofLimbs (x0 x1 x2 x3 : Limb) :
    limb (ofLimbs x0 x1 x2 x3) 0 = x0 ∧ limb (ofLimbs x0 x1 x2 x3) 1 = x1 ∧
    limb (ofLimbs x0 x1 x2 x3) 2 = x2 ∧ limb (ofLimbs x0 x1 x2 x3) 3 = x3 := by
  have h0 := x0.isLt
  have h1 := x1.isLt
  have h2 := x2.isLt
  have h3 := x3.isLt
  refine ⟨?_, ?_, ?_, ?_⟩ <;> apply BitVec.eq_of_toNat_eq <;> rw [limb_toNat, ofLimbs_toNat] <;> omega

/-- A value is made of its own four limbs. -/
theorem ofLimbs_limb (x : Word) : ofLimbs (limb x 0) (limb x 1) (limb x 2) (limb x 3) = x := by
  apply BitVec.eq_of_toNat_eq
  rw [ofLimbs_toNat, ← word_toNat_eq_limbs]

/-- Two 256-bit values with the same four limbs are equal. -/
theorem word_ext_limbs {x y : Word} (h : ∀ i < 4, limb x i = limb y i) : x = y := by
  rw [← ofLimbs_limb x, ← ofLimbs_limb y, h 0 (by omega), h 1 (by omega), h 2 (by omega), h 3 (by omega)]

/-- R73: a 64-bit value in a 256-bit register keeps its value. -/
@[simp] theorem ofLimb_toNat (x : Limb) : (ofLimb x).toNat = x.toNat := by
  have := x.isLt
  simp only [ofLimb, BitVec.toNat_setWidth]
  omega

/-- What a run of limbs replaced by `v` is as an integer, when `v` and the run fit. -/
theorem putLimbs_toNat {w : Nat} (x : BitVec w) (lo count v : Nat) (hv : v < 2 ^ (64 * count)) (hw : 64 * (lo + count) ≤ w) :
    (putLimbs x lo count v).toNat =
      x.toNat % 2 ^ (64 * lo) + v * 2 ^ (64 * lo) + x.toNat / 2 ^ (64 * (lo + count)) * 2 ^ (64 * (lo + count)) := by
  unfold putLimbs
  rw [BitVec.toNat_ofNat, Nat.mod_eq_of_lt]
  have hp : 2 ^ (64 * (lo + count)) = 2 ^ (64 * lo) * 2 ^ (64 * count) := by rw [← pow_add]; ring_nf
  have h0 : x.toNat % 2 ^ (64 * lo) < 2 ^ (64 * lo) := Nat.mod_lt _ (by positivity)
  have h1 : (v + 1) * 2 ^ (64 * lo) ≤ 2 ^ (64 * count) * 2 ^ (64 * lo) := Nat.mul_le_mul_right _ hv
  have h2 : x.toNat / 2 ^ (64 * (lo + count)) < 2 ^ (w - 64 * (lo + count)) := by
    apply Nat.div_lt_of_lt_mul
    rw [← pow_add]
    have : 64 * (lo + count) + (w - 64 * (lo + count)) = w := by omega
    rw [this]
    exact x.isLt
  have h3 : (x.toNat / 2 ^ (64 * (lo + count)) + 1) * 2 ^ (64 * (lo + count)) ≤
      2 ^ (w - 64 * (lo + count)) * 2 ^ (64 * (lo + count)) := Nat.mul_le_mul_right _ h2
  rw [← pow_add, Nat.sub_add_cancel hw] at h3
  nlinarith

/-- 20_memory.md R56: the written limb reads back as written. -/
theorem limb_putLimb_same (x : Word) (i : Nat) (v : Limb) (hi : i < 4) : limb (putLimb x i v) i = v := by
  have hv := v.isLt
  have hx := x.isLt
  apply BitVec.eq_of_toNat_eq
  rw [limb_toNat, putLimb, putLimbs_toNat _ _ _ _ (by simpa using hv) (by omega)]
  interval_cases i <;> omega

/-- 20_memory.md R56: a limb write leaves the other limbs alone. -/
theorem limb_putLimb_other (x : Word) (i k : Nat) (v : Limb) (hi : i < 4) (hk : k < 4) (hne : k ≠ i) :
    limb (putLimb x i v) k = limb x k := by
  have hv := v.isLt
  have hx := x.isLt
  apply BitVec.eq_of_toNat_eq
  rw [limb_toNat, limb_toNat, putLimb, putLimbs_toNat _ _ _ _ (by simpa using hv) (by omega)]
  interval_cases i <;> interval_cases k <;> first | exact absurd rfl hne | omega

/-- R14: `siglimbs` and zero. -/
theorem siglimbs_eq_zero (x : Word) : siglimbs x = 0 ↔ x = 0 := by
  have hx := word_toNat_eq_limbs x
  unfold siglimbs
  constructor
  · intro h
    split at h
    · cases h
    split at h
    · cases h
    split at h
    · cases h
    split at h
    · cases h
    · rename_i h3 h2 h1 h0
      apply BitVec.eq_of_toNat_eq
      simp only [not_not] at h3 h2 h1 h0
      rw [hx, h3, h2, h1, h0]
      rfl
  · rintro rfl
    rfl

/-- R112: a value of width `n ≥ 1` fits in `n` limbs and its limb `n - 1` is not zero. -/
theorem siglimbs_spec (x : Word) (h : siglimbs x ≠ 0) :
    x.toNat < 2 ^ (64 * (siglimbs x).val) ∧ limb x ((siglimbs x).val - 1) ≠ 0 := by
  have hx := word_toNat_eq_limbs x
  have l0 := (limb x 0).isLt
  have l1 := (limb x 1).isLt
  have l2 := (limb x 2).isLt
  have l3 := (limb x 3).isLt
  unfold siglimbs at h ⊢
  split
  · rename_i h3
    exact ⟨x.isLt, h3⟩
  split
  · rename_i h3 h2
    simp only [not_not] at h3
    refine ⟨?_, h2⟩
    rw [hx, h3]
    rw [show (0 : Limb).toNat = 0 from rfl]
    show _ < 2 ^ (64 * 3)
    omega
  split
  · rename_i h3 h2 h1
    simp only [not_not] at h3 h2
    refine ⟨?_, h1⟩
    rw [hx, h3, h2]
    rw [show (0 : Limb).toNat = 0 from rfl]
    show _ < 2 ^ (64 * 2)
    omega
  split
  · rename_i h3 h2 h1 h0
    simp only [not_not] at h3 h2 h1
    refine ⟨?_, h0⟩
    rw [hx, h3, h2, h1]
    rw [show (0 : Limb).toNat = 0 from rfl]
    show _ < 2 ^ (64 * 1)
    omega
  · rename_i h3 h2 h1 h0
    rw [if_neg h3, if_neg h2, if_neg h1, if_neg h0] at h
    exact absurd rfl h

/-- R14, R116: shifting a non-zero limb left by `clz64` sets its top bit and loses nothing. -/
theorem clz64_spec (x : Limb) (h : x ≠ 0) : clz64 x ≤ 63 ∧ 2 ^ 63 ≤ x.toNat * 2 ^ clz64 x ∧ x.toNat * 2 ^ clz64 x < 2 ^ 64 := by
  have hx := x.isLt
  have h0 : x.toNat ≠ 0 := fun h' => h (BitVec.eq_of_toNat_eq (by simpa using h'))
  have hl : Nat.log2 x.toNat < 64 := (Nat.log2_lt h0).2 hx
  have hlo : 2 ^ Nat.log2 x.toNat ≤ x.toNat := Nat.log2_self_le h0
  have hhi : x.toNat < 2 ^ (Nat.log2 x.toNat + 1) := Nat.lt_log2_self
  unfold clz64
  refine ⟨by omega, ?_, ?_⟩
  · calc 2 ^ 63 = 2 ^ Nat.log2 x.toNat * 2 ^ (63 - Nat.log2 x.toNat) := by rw [← pow_add]; congr 1; omega
      _ ≤ _ := Nat.mul_le_mul_right _ hlo
  · calc x.toNat * 2 ^ (63 - Nat.log2 x.toNat) < 2 ^ (Nat.log2 x.toNat + 1) * 2 ^ (63 - Nat.log2 x.toNat) :=
        Nat.mul_lt_mul_of_pos_right hhi (by positivity)
      _ = 2 ^ 64 := by rw [← pow_add]; congr 1; omega

end Sys2Proof.Machine
end

