-- ==== Sys2Proof/Laws/ShortDivision.lean ====
section
/-! SUPPORT. The divide primitive and the limb chain: their contracts (spec 40_primitive_div2by1.md R91, R93; 41_short_division.md
R103). -/

namespace Sys2Proof.Machine

/-- R91, R93: under the precondition both outputs are the integers of the rule, and they fit in 64 bits. -/
theorem div2by1_spec (h l d : Limb) (pre : Div2by1Pre h d) :
    (div2by1 h l d).1.toNat = (h.toNat * 2 ^ 64 + l.toNat) / d.toNat ∧
    (div2by1 h l d).2.toNat = (h.toNat * 2 ^ 64 + l.toNat) % d.toNat := by
  have hd : 0 < d.toNat := Nat.pos_of_ne_zero fun h' => pre.1 (BitVec.eq_of_toNat_eq (by simpa using h'))
  have hh : h.toNat < d.toNat := BitVec.lt_def.1 pre.2
  have hl := l.isLt
  have hq : (h.toNat * 2 ^ 64 + l.toNat) / d.toNat < 2 ^ 64 := by
    apply Nat.div_lt_of_lt_mul
    nlinarith
  have hr : (h.toNat * 2 ^ 64 + l.toNat) % d.toNat < d.toNat := Nat.mod_lt _ hd
  have hd' := d.isLt
  unfold div2by1
  rw [if_pos pre]
  simp only [BitVec.toNat_ofNat]
  exact ⟨Nat.mod_eq_of_lt hq, Nat.mod_eq_of_lt (by omega)⟩

/-- R91: the two outputs recombine to the dividend, and the remainder is below the divisor. -/
theorem div2by1_recombine (h l d : Limb) (pre : Div2by1Pre h d) :
    h.toNat * 2 ^ 64 + l.toNat = (div2by1 h l d).1.toNat * d.toNat + (div2by1 h l d).2.toNat ∧
    (div2by1 h l d).2 < d := by
  obtain ⟨hq, hr⟩ := div2by1_spec h l d pre
  have hd : 0 < d.toNat := Nat.pos_of_ne_zero fun h' => pre.1 (BitVec.eq_of_toNat_eq (by simpa using h'))
  refine ⟨?_, ?_⟩
  · rw [hq, hr, Nat.div_add_mod']
  · rw [BitVec.lt_def, hr]
    exact Nat.mod_lt _ hd

/-- R103: from a carry below the divisor, the chain gives the Euclidean quotient and remainder of `carry*2^256 + a`, recombined. -/
theorem limbChain_recombine (c : Limb) (a : Word) (d : Limb) (pre : Div2by1Pre c d) :
    c.toNat * 2 ^ 256 + a.toNat = (limbChain c a d).quot.toNat * d.toNat + (limbChain c a d).rem.toNat ∧
    (limbChain c a d).rem < d := by
  obtain ⟨e3, b3⟩ := div2by1_recombine c (limb a 3) d pre
  obtain ⟨e2, b2⟩ := div2by1_recombine _ (limb a 2) d ⟨pre.1, b3⟩
  obtain ⟨e1, b1⟩ := div2by1_recombine _ (limb a 1) d ⟨pre.1, b2⟩
  obtain ⟨e0, b0⟩ := div2by1_recombine _ (limb a 0) d ⟨pre.1, b1⟩
  refine ⟨?_, b0⟩
  unfold limbChain
  simp only [ofLimbs_toNat]
  rw [word_toNat_eq_limbs a]
  linear_combination 2 ^ 192 * e3 + 2 ^ 128 * e2 + 2 ^ 64 * e1 + e0

/-- R103: with no carry in, the chain computes `floor(a / d)` and `a mod d`. -/
theorem limbChain_spec (a : Word) (d : Limb) (hd : d ≠ 0) :
    (limbChain 0 a d).quot.toNat = a.toNat / d.toNat ∧ (limbChain 0 a d).rem.toNat = a.toNat % d.toNat := by
  have hpos : 0 < d.toNat := Nat.pos_of_ne_zero fun h' => hd (BitVec.eq_of_toNat_eq (by simpa using h'))
  have pre : Div2by1Pre 0 d := ⟨hd, by rw [BitVec.lt_def]; simpa using hpos⟩
  obtain ⟨e, b⟩ := limbChain_recombine 0 a d pre
  rw [BitVec.lt_def] at b
  have e' : a.toNat = (limbChain 0 a d).rem.toNat + d.toNat * (limbChain 0 a d).quot.toNat := by
    have : (0 : Limb).toNat = 0 := rfl
    rw [this] at e
    linarith
  constructor
  · rw [e', Nat.add_mul_div_left _ _ hpos, Nat.div_eq_of_lt b, Nat.zero_add]
  · rw [e', Nat.add_mul_mod_self_left, Nat.mod_eq_of_lt b]

end Sys2Proof.Machine
end

