-- ==== Sys2Proof/Laws/LongDivision.lean ====
section
/-! SUPPORT. The long-division unit computes floor and mod (spec 42_long_division.md R125, R126), so its datapath (R112 to R124) gives
the result rule R111. -/

namespace Sys2Proof.Machine

open Sys2Proof.Laws

/-- A run of limbs is the top three limbs over the rest. -/
theorem limbs_split_three {w : Nat} (x : BitVec w) (j k : Nat) :
    limbs x j (k + 3) =
      (((limb x (j + (k + 2))).toNat * 2 ^ 64 + (limb x (j + (k + 1))).toNat) * 2 ^ 64 + (limb x (j + k)).toNat) * 2 ^ (64 * k)
        + limbs x j k := by
  have hl : ∀ i, (limb x (j + i)).toNat = x.toNat / 2 ^ (64 * j) / 2 ^ (64 * i) % 2 ^ 64 := fun i => by
    rw [limb_toNat, Nat.div_div_eq_div_mul, ← pow_add, Nat.mul_add]
  unfold limbs
  rw [hl, hl, hl]
  set y := x.toNat / 2 ^ (64 * j)
  have step : ∀ i, y % 2 ^ (64 * (i + 1)) = y % 2 ^ (64 * i) + 2 ^ (64 * i) * (y / 2 ^ (64 * i) % 2 ^ 64) := fun i => by
    rw [Nat.mul_add, pow_add, Nat.mod_mul]
  have p1 : 2 ^ (64 * (k + 1)) = 2 ^ (64 * k) * 2 ^ 64 := by rw [← pow_add, Nat.mul_add]
  have p2 : 2 ^ (64 * (k + 2)) = 2 ^ (64 * k) * 2 ^ 64 * 2 ^ 64 := by rw [← p1, ← pow_add]; exact congrArg (2 ^ ·) (by ring)
  rw [step (k + 2), step (k + 1), step k, p1, p2]
  ring

/-- A divisor of `k + 2` limbs is its top two limbs over the rest. -/
theorem divisor_split_two (v : Word) (k : Nat) (hv : v.toNat < 2 ^ (64 * (k + 2))) :
    v.toNat = ((limb v (k + 1)).toNat * 2 ^ 64 + (limb v k).toNat) * 2 ^ (64 * k) + v.toNat % 2 ^ (64 * k) := by
  rw [limb_toNat, limb_toNat]
  have step : ∀ i, v.toNat % 2 ^ (64 * (i + 1)) = v.toNat % 2 ^ (64 * i) + 2 ^ (64 * i) * (v.toNat / 2 ^ (64 * i) % 2 ^ 64) :=
    fun i => by rw [Nat.mul_add, pow_add, Nat.mod_mul]
  have p1 : 2 ^ (64 * (k + 1)) = 2 ^ (64 * k) * 2 ^ 64 := by rw [← pow_add, Nat.mul_add]
  conv_lhs => rw [← Nat.mod_eq_of_lt hv]
  rw [step (k + 1), step k, p1]
  ring

/-- R120, R126: from an estimate that is not below the true digit, the correction loop ends, on a digit that passes the test, and that
is not below the true digit either. -/
theorem trialCorrect_spec (vTop vNext low : Limb) (q top2 : Nat)
    (hge : ∀ qhat, top2 * 2 ^ 64 + low.toNat < qhat * (vTop.toNat * 2 ^ 64 + vNext.toNat) → q < qhat) :
    ∀ (fuel qhat rhat : Nat), qhat * vTop.toNat + rhat = top2 → q ≤ qhat → qhat < 2 ^ 64 → 2 ^ 64 ≤ rhat + fuel * vTop.toNat →
      q ≤ (trialCorrect vTop vNext low fuel qhat rhat).1 ∧
      (trialCorrect vTop vNext low fuel qhat rhat).1 * (vTop.toNat * 2 ^ 64 + vNext.toNat) ≤ top2 * 2 ^ 64 + low.toNat ∧
      (trialCorrect vTop vNext low fuel qhat rhat).1 < 2 ^ 64 := by
  have hn := vNext.isLt
  have wide : ∀ qhat rhat, qhat * vTop.toNat + rhat = top2 → qhat < 2 ^ 64 → 2 ^ 64 ≤ rhat →
      qhat * (vTop.toNat * 2 ^ 64 + vNext.toNat) ≤ top2 * 2 ^ 64 + low.toNat := by
    intro qhat rhat e hq hr
    have : qhat * vNext.toNat ≤ 2 ^ 64 * 2 ^ 64 := Nat.mul_le_mul hq.le hn.le
    nlinarith
  intro fuel
  induction fuel with
  | zero =>
    intro qhat rhat e hle hq hr
    refine ⟨hle, ?_, hq⟩
    exact wide qhat rhat e hq (by simpa using hr)
  | succ k ih =>
    intro qhat rhat e hle hq hr
    unfold trialCorrect
    split
    · rename_i ht
      simp only [trialTooLarge, Bool.and_eq_true, decide_eq_true_eq] at ht
      have hlt : q < qhat := by
        apply hge
        nlinarith [ht.2]
      apply ih
      · obtain ⟨m, rfl⟩ : ∃ m, qhat = m + 1 := ⟨qhat - 1, by omega⟩
        rw [← e]
        simp only [Nat.add_sub_cancel]
        ring
      · omega
      · omega
      · linarith [hr, Nat.succ_mul k vTop.toNat]
    · rename_i ht
      refine ⟨hle, ?_, hq⟩
      simp only [trialTooLarge, Bool.and_eq_true, decide_eq_true_eq, not_and, not_lt] at ht
      by_cases hr' : rhat < 2 ^ 64
      · nlinarith [ht hr']
      · exact wide qhat rhat e hq (by omega)

/-- R120, R126: with a normalised divisor and a window below `V * 2^64`, the trial digit is the true digit or exceeds it by one, and it
passes the correction test. -/
theorem trialDigit_spec (k : Nat) (v : Word) (j : Nat) (num : Scratch) (hv : v.toNat < 2 ^ (64 * (k + 2)))
    (htop : 2 ^ 63 ≤ (limb v (k + 1)).toNat) (hW : limbs num j (k + 3) < v.toNat * 2 ^ 64) :
    limbs num j (k + 3) / v.toNat ≤ trialDigit (k + 2) v j num ∧
    trialDigit (k + 2) v j num ≤ limbs num j (k + 3) / v.toNat + 1 ∧ trialDigit (k + 2) v j num < 2 ^ 64 ∧
    trialDigit (k + 2) v j num * ((limb v (k + 1)).toNat * 2 ^ 64 + (limb v k).toNat) ≤
      ((limb num (j + (k + 2))).toNat * 2 ^ 64 + (limb num (j + (k + 1))).toNat) * 2 ^ 64 + (limb num (j + k)).toNat := by
  have hVs := divisor_split_two v k hv
  have hWs := limbs_split_three num j k
  set C := 2 ^ (64 * k) with hC
  set vL := v.toNat % C with hvL
  set wL := limbs num j k with hwL
  have hCpos : 0 < C := by positivity
  have hvLlt : vL < C := Nat.mod_lt _ hCpos
  have hwLlt : wL < C := Nat.mod_lt _ hCpos
  have ntop := (limb num (j + (k + 2))).isLt
  have nmid := (limb num (j + (k + 1))).isLt
  have nlow := (limb num (j + k)).isLt
  have nnext := (limb v k).isLt
  have nvtop := (limb v (k + 1)).isLt
  set top := limb num (j + (k + 2)) with htopdef
  set mid := limb num (j + (k + 1)) with hmiddef
  set low := limb num (j + k) with hlowdef
  set vT := limb v (k + 1) with hvTdef
  set vN := limb v k with hvNdef
  have hVpos : 0 < v.toNat := by
    by_contra h
    have h0 : v.toNat = 0 := by omega
    rw [h0] at hW
    omega
  have hqlt : limbs num j (k + 3) / v.toNat < 2 ^ 64 := by
    apply Nat.div_lt_of_lt_mul
    exact hW
  have hest : limbs num j (k + 3) / v.toNat ≤ (top.toNat * 2 ^ 64 + mid.toNat) / vT.toNat := by
    have := digit_le_estimate (D := top.toNat * 2 ^ 64 + mid.toNat) (X := 2 ^ 64 * C) (wL := low.toNat * C + wL) (vT := vT.toNat)
      (by nlinarith) (by omega) (vN.toNat * C + vL)
    rw [hWs, hVs]
    convert this using 2 <;> ring
  -- the estimate and its remainder
  have hE : ∃ qhat rhat, trialEstimate top mid vT = (qhat, rhat) ∧ qhat * vT.toNat + rhat = top.toNat * 2 ^ 64 + mid.toNat ∧
      limbs num j (k + 3) / v.toNat ≤ qhat ∧ qhat < 2 ^ 64 := by
    unfold trialEstimate
    by_cases hc : vT ≤ top
    · rw [if_pos hc]
      have hle : vT.toNat ≤ top.toNat := BitVec.le_def.1 hc
      have heq : top.toNat = vT.toNat := by
        by_contra hne
        have hlt : vT.toNat + 1 ≤ top.toNat := by omega
        have : (vT.toNat + 1) * (2 ^ 64 * 2 ^ 64 * C) ≤ top.toNat * (2 ^ 64 * 2 ^ 64 * C) := Nat.mul_le_mul_right _ hlt
        rw [hWs, hVs] at hW
        nlinarith
      refine ⟨_, _, rfl, ?_, by omega, by omega⟩
      rw [heq]
      have : (2 ^ 64 - 1) * vT.toNat + vT.toNat = vT.toNat * 2 ^ 64 := by omega
      omega
    · rw [if_neg hc]
      have hlt : top < vT := by
        rw [BitVec.lt_def]
        rw [BitVec.le_def] at hc
        omega
      have pre : Div2by1Pre top vT := ⟨by intro h0; rw [h0] at htop; simp at htop, hlt⟩
      obtain ⟨e, -⟩ := div2by1_recombine top mid vT pre
      obtain ⟨eq, -⟩ := div2by1_spec top mid vT pre
      exact ⟨_, _, rfl, e.symm, by rw [eq]; exact hest, (div2by1 top mid vT).1.isLt⟩
  obtain ⟨qhat, rhat, hEq, hsum, hle, hlt⟩ := hE
  have hge : ∀ x, (top.toNat * 2 ^ 64 + mid.toNat) * 2 ^ 64 + low.toNat < x * (vT.toNat * 2 ^ 64 + vN.toNat) →
      limbs num j (k + 3) / v.toNat < x := by
    intro x hx
    rw [hWs, hVs]
    exact lt_of_test_fails hwLlt hx
  have hfuel : 2 ^ 64 ≤ rhat + Config.correctionFuel * vT.toNat := by
    unfold Config.correctionFuel
    omega
  have key := trialCorrect_spec vT vN low _ _ hge Config.correctionFuel qhat rhat hsum hle hlt hfuel
  have hT : trialDigit (k + 2) v j num = (trialCorrect vT vN low Config.correctionFuel qhat rhat).1 := by
    unfold trialDigit
    have i1 : j + (k + 2) - 1 = j + (k + 1) := by omega
    have i2 : j + (k + 2) - 2 = j + k := by omega
    have i3 : k + 2 - 1 = k + 1 := by omega
    have i4 : k + 2 - 2 = k := by omega
    simp only [i1, i2, i3, i4]
    rw [hEq]
  rw [hT]
  refine ⟨key.1, ?_, key.2.2, key.2.1⟩
  rw [hWs, hVs]
  exact le_of_test_passes hvLlt (B := 2 ^ 64) (by omega) key.2.2 key.2.1

/-- R121, R122, R126: from a trial digit at most one too large, multiply-subtract and add-back leave the true digit and `W mod V`. -/
theorem subtractAndRepair_spec (n v qhat window : Nat) (hv : 0 < v) (hvm : v < 2 ^ (64 * n)) (hq : qhat < 2 ^ 64)
    (hw : window < 2 ^ (64 * (n + 1))) (hle : window / v ≤ qhat) (hge : qhat ≤ window / v + 1) :
    subtractAndRepair n v qhat window = (window / v, window % v) := by
  have hm : 2 ^ (64 * (n + 1)) = 2 ^ (64 * n) * 2 ^ 64 := by rw [Nat.mul_add, pow_add]
  have hwv := Nat.div_add_mod window v
  have hr := Nat.mod_lt window hv
  have hp : qhat * v < 2 ^ (64 * (n + 1)) := by
    rw [hm]
    calc qhat * v ≤ 2 ^ 64 * v := Nat.mul_le_mul_right _ hq.le
      _ < 2 ^ 64 * 2 ^ (64 * n) := Nat.mul_lt_mul_of_pos_left hvm (by positivity)
      _ = _ := Nat.mul_comm _ _
  have hvm' : v < 2 ^ (64 * (n + 1)) := by
    rw [hm]
    exact lt_of_lt_of_le hvm (Nat.le_mul_of_pos_right _ (by positivity))
  unfold subtractAndRepair
  simp only
  generalize 2 ^ (64 * (n + 1)) = m at *
  generalize window / v = q at *
  generalize window % v = r at *
  by_cases hb : window < qhat * v
  · rw [if_pos hb]
    have hq1 : qhat = q + 1 := by
      by_contra hne
      have : qhat = q := by omega
      rw [this] at hb
      nlinarith
    subst hq1
    have e : (q + 1) * v = v * q + v := by ring
    rw [e] at hb hp ⊢
    have hsub : window + m - (v * q + v) = m + r - v := by omega
    rw [hsub, Nat.mod_eq_of_lt (a := m + r - v) (by omega)]
    have : m + r - v + v = r + m := by omega
    rw [this, Nat.add_mod_right, Nat.mod_eq_of_lt (by omega)]
    simp
  · rw [if_neg hb]
    have hq0 : qhat = q := by
      by_contra hne
      have : qhat = q + 1 := by omega
      rw [this] at hb
      nlinarith
    subst hq0
    have e : qhat * v = v * qhat := Nat.mul_comm _ _
    rw [e] at hb hp ⊢
    have : window + m - v * qhat = r + m := by omega
    rw [this, Nat.add_mod_right, Nat.mod_eq_of_lt (by omega)]

/-- R119 to R123: what one iteration makes of the buffer: the window becomes `W mod V`, below the digit `W / V` in its top limb. -/
theorem digitStep_toNat (k : Nat) (v : Word) (j : Nat) (num : Scratch) (hjk : j + (k + 2) ≤ 4)
    (hv : v.toNat < 2 ^ (64 * (k + 2))) (htop : 2 ^ 63 ≤ (limb v (k + 1)).toNat) (hW : limbs num j (k + 3) < v.toNat * 2 ^ 64) :
    (digitStep (k + 2) v j num).toNat =
      num.toNat % 2 ^ (64 * j) + limbs num j (k + 3) % v.toNat * 2 ^ (64 * j)
        + limbs num j (k + 3) / v.toNat * (2 ^ (64 * j) * 2 ^ (64 * (k + 2)))
        + num.toNat / (2 ^ (64 * j) * (2 ^ 64 * 2 ^ (64 * (k + 2)))) * (2 ^ (64 * j) * (2 ^ 64 * 2 ^ (64 * (k + 2)))) := by
  have hVpos : 0 < v.toNat := by
    by_contra h
    have h0 : v.toNat = 0 := by omega
    rw [h0] at hW
    omega
  have hwlt : limbs num j (k + 3) < 2 ^ (64 * (k + 2 + 1)) := Nat.mod_lt _ (by positivity)
  obtain ⟨t1, t2, t3, -⟩ := trialDigit_spec k v j num hv htop hW
  have hs := subtractAndRepair_spec (k + 2) v.toNat _ (limbs num j (k + 3)) hVpos hv t3 hwlt t1 t2
  unfold digitStep
  simp only
  rw [show k + 2 + 1 = k + 3 from rfl, hs]
  simp only
  set W := limbs num j (k + 3) with hWdef
  have hr : W % v.toNat < v.toNat := Nat.mod_lt _ hVpos
  have hq : W / v.toNat < 2 ^ 64 := by omega
  have p3 : 2 ^ (64 * (k + 3)) = 2 ^ 64 * 2 ^ (64 * (k + 2)) := by rw [← pow_add]; exact congrArg (2 ^ ·) (by ring)
  have hr3 : W % v.toNat < 2 ^ (64 * (k + 3)) := by
    rw [p3]
    calc _ < 2 ^ (64 * (k + 2)) := by omega
      _ ≤ _ := Nat.le_mul_of_pos_left _ (by positivity)
  have hfit : 64 * (j + (k + 3)) ≤ 320 := by omega
  have e1 := putLimbs_toNat num j (k + 3) (W % v.toNat) hr3 hfit
  have hdig : (BitVec.ofNat 64 (W / v.toNat)).toNat = W / v.toNat := by
    rw [BitVec.toNat_ofNat, Nat.mod_eq_of_lt hq]
  unfold putLimb
  rw [hdig, putLimbs_toNat _ _ _ _ (by simpa using hq) (by omega), e1]
  have pj : 2 ^ (64 * (j + (k + 2))) = 2 ^ (64 * j) * 2 ^ (64 * (k + 2)) := by rw [← pow_add]; exact congrArg (2 ^ ·) (by ring)
  have pj1 : 2 ^ (64 * (j + (k + 2) + 1)) = 2 ^ (64 * j) * (2 ^ 64 * 2 ^ (64 * (k + 2))) := by
    rw [← pow_add, ← pow_add]; exact congrArg (2 ^ ·) (by ring)
  have pj2 : 2 ^ (64 * (j + (k + 3))) = 2 ^ (64 * j) * (2 ^ 64 * 2 ^ (64 * (k + 2))) := by
    rw [← pow_add, ← pow_add]; exact congrArg (2 ^ ·) (by ring)
  rw [pj, pj1, pj2]
  have hPpos : 0 < 2 ^ (64 * j) := by positivity
  have hMpos : 0 < 2 ^ (64 * (k + 2)) := by positivity
  have hlow : num.toNat % 2 ^ (64 * j) < 2 ^ (64 * j) := Nat.mod_lt _ hPpos
  generalize 2 ^ (64 * j) = P at *
  generalize 2 ^ (64 * (k + 2)) = M at *
  generalize num.toNat / (P * (2 ^ 64 * M)) = Q
  generalize num.toNat % P = L at *
  have hin : L + W % v.toNat * P < P * M := by
    have : (W % v.toNat + 1) * P ≤ M * P := Nat.mul_le_mul_right P (by omega)
    nlinarith
  have hPM : 0 < P * M := Nat.mul_pos hPpos hMpos
  have eA : L + W % v.toNat * P + Q * (P * (2 ^ 64 * M)) = L + W % v.toNat * P + P * M * (Q * 2 ^ 64) := by ring
  have eB : L + W % v.toNat * P + Q * (P * (2 ^ 64 * M)) = L + W % v.toNat * P + P * (2 ^ 64 * M) * Q := by ring
  have hmod : (L + W % v.toNat * P + Q * (P * (2 ^ 64 * M))) % (P * M) = L + W % v.toNat * P := by
    rw [eA, Nat.add_mul_mod_self_left, Nat.mod_eq_of_lt hin]
  have hin' : L + W % v.toNat * P < P * (2 ^ 64 * M) :=
    lt_of_lt_of_le hin (Nat.mul_le_mul_left P (Nat.le_mul_of_pos_left _ (by positivity)))
  have hdiv : (L + W % v.toNat * P + Q * (P * (2 ^ 64 * M))) / (P * (2 ^ 64 * M)) = Q := by
    rw [eB, Nat.add_mul_div_left _ _ (Nat.mul_pos hPpos (Nat.mul_pos (by norm_num) hMpos)), Nat.div_eq_of_lt hin', Nat.zero_add]
  rw [hmod, hdiv]

/-- The loop invariant in the terms of Laws/KnuthD.lean. -/
theorem digitInv_iff {n i : Nat} (hi : i + n ≤ 5) (v : Word) (num0 num : Scratch) :
    DigitInv n v num0 i num ↔ LoopInv (2 ^ (64 * i)) (2 ^ (64 * n)) v.toNat num0.toNat num.toNat := by
  have hp : 2 ^ (64 * (i + n)) = 2 ^ (64 * i) * 2 ^ (64 * n) := by rw [← pow_add, Nat.mul_add]
  have hhi : limbs num (i + n) (5 - (i + n)) = num.toNat / (2 ^ (64 * i) * 2 ^ (64 * n)) := by
    unfold limbs
    rw [← hp, Nat.mod_eq_of_lt]
    apply Nat.div_lt_of_lt_mul
    rw [← pow_add]
    exact lt_of_lt_of_eq num.isLt (congrArg (2 ^ ·) (by omega))
  have hlo : limbs num 0 (i + n) = num.toNat % (2 ^ (64 * i) * 2 ^ (64 * n)) := by
    unfold limbs
    rw [Nat.mul_zero, pow_zero, Nat.div_one, hp]
  rw [DigitInv, hhi, hlo]
  exact ⟨fun h => ⟨h.1, h.2⟩, fun h => ⟨h.split, h.small⟩⟩

theorem pow_limb_succ (j : Nat) : 2 ^ (64 * (j + 1)) = 2 ^ (64 * j) * 2 ^ 64 := by rw [Nat.mul_add, pow_add]

/-- R119, R125 (b), (d): under the invariant the window is below `V * 2^64`. -/
theorem DigitInv.window_lt {n j : Nat} {v : Word} {num0 num : Scratch} (hj : j + n ≤ 4) (h : DigitInv n v num0 (j + 1) num) :
    limbs num j (n + 1) < v.toNat * 2 ^ 64 := by
  have hl := (digitInv_iff (by omega) v num0 num).1 h
  rw [pow_limb_succ] at hl
  have hw := hl.window_lt
  rwa [← pow_add, show 64 + 64 * n = 64 * (n + 1) by ring] at hw

/-- R125 (c), (d): one iteration keeps the invariant. -/
theorem digitStep_inv (k : Nat) (v : Word) (num0 : Scratch) (hv : v.toNat < 2 ^ (64 * (k + 2)))
    (htop : 2 ^ 63 ≤ (limb v (k + 1)).toNat) (j : Nat) (num : Scratch) (hj : j + (k + 2) ≤ 4)
    (h : DigitInv (k + 2) v num0 (j + 1) num) : DigitInv (k + 2) v num0 j (digitStep (k + 2) v j num) := by
  have hVpos : 0 < v.toNat := by
    by_contra hn
    have h0 : v.toNat = 0 := by omega
    rw [limb_toNat, h0] at htop
    simp at htop
  have hW := h.window_lt hj
  have hl := (digitInv_iff (by omega) v num0 num).1 h
  rw [pow_limb_succ] at hl
  rw [digitInv_iff (by omega)]
  have hstep := digitStep_toNat k v j num hj hv htop hW
  rw [show limbs num j (k + 3) = num.toNat / 2 ^ (64 * j) % (2 ^ 64 * 2 ^ (64 * (k + 2))) by
    unfold limbs
    rw [show 2 ^ (64 * (k + 3)) = 2 ^ 64 * 2 ^ (64 * (k + 2)) by rw [← pow_add]; exact congrArg (2 ^ ·) (by ring)]] at hstep
  exact hl.step (by positivity) hv hVpos hstep

/-- R125 (d): the whole digit loop keeps the invariant down to limb 0. -/
theorem digitLoop_inv (k : Nat) (v : Word) (num0 : Scratch) (hv : v.toNat < 2 ^ (64 * (k + 2)))
    (htop : 2 ^ 63 ≤ (limb v (k + 1)).toNat) :
    ∀ (j : Nat) (num : Scratch), j + (k + 2) ≤ 4 → DigitInv (k + 2) v num0 (j + 1) num →
      DigitInv (k + 2) v num0 0 (digitLoop (k + 2) v j num) := by
  intro j
  induction j with
  | zero => exact fun num hj h => digitStep_inv k v num0 hv htop 0 num hj h
  | succ j ih => exact fun num hj h => ih _ (by omega) (digitStep_inv k v num0 hv htop (j + 1) num hj h)

/-- R116, R117: normalisation: the shifted divisor keeps every bit, has its top bit set, and `s` is at most 63. -/
theorem normalise_spec (b : Word) (k : Nat) (hb : b.toNat < 2 ^ (64 * (k + 2))) (hk : k + 2 ≤ 4) (ht : limb b (k + 1) ≠ 0) :
    shiftCount b (k + 2) ≤ 63 ∧ (b <<< shiftCount b (k + 2)).toNat = b.toNat * 2 ^ shiftCount b (k + 2) ∧
    b.toNat * 2 ^ shiftCount b (k + 2) < 2 ^ (64 * (k + 2)) ∧ 2 ^ 63 ≤ (limb (b <<< shiftCount b (k + 2)) (k + 1)).toNat := by
  obtain ⟨h63, hlo, hhi⟩ := clz64_spec (limb b (k + 1)) ht
  have hsdef : shiftCount b (k + 2) = clz64 (limb b (k + 1)) := rfl
  rw [hsdef]
  set s := clz64 (limb b (k + 1)) with hs
  have htn : (limb b (k + 1)).toNat = b.toNat / 2 ^ (64 * (k + 1)) := by
    rw [limb_toNat, Nat.mod_eq_of_lt]
    apply Nat.div_lt_of_lt_mul
    rw [← pow_add]
    exact lt_of_lt_of_eq hb (congrArg (2 ^ ·) (by ring))
  rw [htn] at hlo hhi
  set X := 2 ^ (64 * (k + 1)) with hX
  have hXpos : 0 < X := by positivity
  have hXk : 2 ^ (64 * (k + 2)) = 2 ^ 64 * X := by rw [hX, ← pow_add]; exact congrArg (2 ^ ·) (by ring)
  have hbX := Nat.div_add_mod b.toNat X
  have hbm := Nat.mod_lt b.toNat hXpos
  set t := b.toNat / X with ht'
  have hspos : 0 < 2 ^ s := by positivity
  have hlt : b.toNat * 2 ^ s < 2 ^ (64 * (k + 2)) := by
    -- the top limb has `s` leading zeros, so `t + 1` shifted still fits
    have h2 : 2 ^ 64 = 2 ^ (64 - s) * 2 ^ s := by rw [← pow_add]; exact congrArg (2 ^ ·) (by omega)
    have hts : t < 2 ^ (64 - s) := by
      rw [h2] at hhi
      exact Nat.lt_of_mul_lt_mul_right hhi
    have hb1 : b.toNat < 2 ^ (64 - s) * X := by
      have : (t + 1) * X ≤ 2 ^ (64 - s) * X := Nat.mul_le_mul_right X hts
      nlinarith
    calc b.toNat * 2 ^ s < 2 ^ (64 - s) * X * 2 ^ s := Nat.mul_lt_mul_of_pos_right hb1 hspos
      _ = 2 ^ (64 - s) * 2 ^ s * X := by ring
      _ = _ := by rw [← h2, hXk]
  have hle256 : 2 ^ (64 * (k + 2)) ≤ 2 ^ 256 := Nat.pow_le_pow_right (by norm_num) (by omega)
  have hshift : (b <<< s).toNat = b.toNat * 2 ^ s := by
    rw [BitVec.toNat_shiftLeft, Nat.shiftLeft_eq, Nat.mod_eq_of_lt (by omega)]
  refine ⟨h63, hshift, hlt, ?_⟩
  rw [limb_toNat, hshift, ← hX, Nat.mod_eq_of_lt]
  · rw [Nat.le_div_iff_mul_le hXpos]
    calc 2 ^ 63 * X ≤ t * 2 ^ s * X := Nat.mul_le_mul_right X hlo
      _ = X * t * 2 ^ s := by ring
      _ ≤ b.toNat * 2 ^ s := Nat.mul_le_mul_right _ (by omega)
  · apply Nat.div_lt_of_lt_mul
    rw [Nat.mul_comm X, ← hXk]
    exact hlt

/-- R114, R118: the normalised numerator keeps every bit. -/
theorem normalisedNumerator_toNat (a : Word) (s : Nat) (hs : s ≤ 63) : (stage a <<< s).toNat = a.toNat * 2 ^ s := by
  have ha := a.isLt
  have hs64 : 2 ^ s ≤ 2 ^ 63 := Nat.pow_le_pow_right (by norm_num) hs
  unfold stage
  rw [BitVec.toNat_shiftLeft, Nat.shiftLeft_eq, BitVec.toNat_setWidth, Nat.mod_eq_of_lt (a := a.toNat) (by omega), Nat.mod_eq_of_lt]
  calc a.toNat * 2 ^ s ≤ 2 ^ 256 * 2 ^ 63 := Nat.mul_le_mul ha.le hs64
    _ = 2 ^ (256 + 63) := (pow_add 2 256 63).symm
    _ < _ := Nat.pow_lt_pow_right (by omega) (by omega)

/-- R125 (b): the invariant before the first iteration: no digit yet, the whole numerator below the boundary. -/
theorem digitInv_init (k : Nat) (v a : Word) (s : Nat) (hk : k + 2 ≤ 4) (hs : s ≤ 63) (hv : v.toNat < 2 ^ (64 * (k + 2)))
    (htop : 2 ^ 63 ≤ (limb v (k + 1)).toNat) : DigitInv (k + 2) v (stage a <<< s) (4 - (k + 2) + 1) (stage a <<< s) := by
  have hnum := normalisedNumerator_toNat a s hs
  have ha := a.isLt
  have hs64 : 2 ^ s ≤ 2 ^ 63 := Nat.pow_le_pow_right (by norm_num) hs
  have hVge : 2 ^ 63 * 2 ^ (64 * (k + 1)) ≤ v.toNat := by
    have h1 := divisor_split_two v k hv
    have p1 : 2 ^ (64 * (k + 1)) = 2 ^ 64 * 2 ^ (64 * k) := by rw [← pow_add]; exact congrArg (2 ^ ·) (by ring)
    rw [h1, p1]
    have h2 : 2 ^ 63 * (2 ^ 64 * 2 ^ (64 * k)) ≤ (limb v (k + 1)).toNat * (2 ^ 64 * 2 ^ (64 * k)) := Nat.mul_le_mul_right _ htop
    have h3 := Nat.zero_le ((limb v k).toNat * 2 ^ (64 * k))
    have h4 := Nat.zero_le (v.toNat % 2 ^ (64 * k))
    linarith
  rw [digitInv_iff (by omega)]
  have hall : 2 ^ (64 * (4 - (k + 2) + 1)) * 2 ^ (64 * (k + 2)) = 2 ^ 320 := by
    rw [← pow_add]; exact congrArg (2 ^ ·) (by omega)
  have hlt := (stage a <<< s).isLt
  refine ⟨?_, ?_⟩
  · rw [hall, Nat.div_eq_of_lt hlt, Nat.mod_eq_of_lt hlt]
    simp
  · rw [hall, Nat.mod_eq_of_lt hlt, hnum]
    calc a.toNat * 2 ^ s < 2 ^ 256 * 2 ^ 63 := by nlinarith
      _ = 2 ^ (64 * (4 - (k + 2) + 1)) * (2 ^ 63 * 2 ^ (64 * (k + 1))) := by
        rw [← pow_add, ← pow_add, ← pow_add]; exact congrArg (2 ^ ·) (by omega)
      _ ≤ _ := Nat.mul_le_mul_left _ hVge

/-- R125 (a), (e): what the buffer holds when the invariant has reached limb 0: the quotient of the unscaled operands above their
remainder times `2^s`. -/
theorem DigitInv.result {n s : Nat} {v a b : Word} {num0 num : Scratch} (hv : v.toNat = b.toNat * 2 ^ s)
    (hnum0 : num0.toNat = a.toNat * 2 ^ s) (h : DigitInv n v num0 0 num) :
    limbs num n (5 - n) = a.toNat / b.toNat ∧ limbs num 0 n = a.toNat % b.toNat * 2 ^ s := by
  obtain ⟨hsplit, hsmall⟩ := h
  simp only [Nat.zero_add, Nat.mul_zero, pow_zero, Nat.one_mul, Nat.mul_one, hnum0, hv] at hsplit hsmall
  have hspos : 0 < 2 ^ s := by positivity
  have hD : 0 < b.toNat * 2 ^ s := by omega
  constructor
  · rw [← Nat.mul_div_mul_right _ _ hspos, hsplit, Nat.add_comm, Nat.mul_comm (limbs num n _), Nat.add_mul_div_left _ _ hD,
      Nat.div_eq_of_lt hsmall, Nat.zero_add]
  · rw [← Nat.mul_mod_mul_right, hsplit, Nat.add_comm, Nat.mul_comm (limbs num n _), Nat.add_mul_mod_self_left,
      Nat.mod_eq_of_lt hsmall]

/-- R125: the branches of two to four limbs compute `floor(a / b)` and `a mod b`, and leave the invariant at limb 0. -/
theorem knuthDivide_spec (n : Fin 5) (a b : Word) (hn : 2 ≤ n.val) (hb : b.toNat < 2 ^ (64 * n.val)) (ht : limb b (n.val - 1) ≠ 0) :
    (knuthDivide n a b).result =
      some (BitVec.ofNat 256 (a.toNat / b.toNat), BitVec.ofNat 256 (a.toNat % b.toNat)) ∧
    DigitInv n.val (b <<< shiftCount b n.val) (stage a <<< shiftCount b n.val) 0 (knuthDivide n a b).scratch.num := by
  obtain ⟨k, hk⟩ : ∃ k, n.val = k + 2 := ⟨n.val - 2, by omega⟩
  have hn4 : k + 2 ≤ 4 := by have := n.isLt; omega
  unfold knuthDivide
  simp only [hk]
  rw [hk] at hb ht
  rw [show k + 2 - 1 = k + 1 from rfl] at ht
  obtain ⟨h63, hv, hvlt, hvtop⟩ := normalise_spec b k hb hn4 ht
  rw [← hv] at hvlt
  have hfin := digitLoop_inv k _ _ hvlt hvtop (4 - (k + 2)) _ (by omega) (digitInv_init k _ a _ hn4 h63 hvlt hvtop)
  obtain ⟨hQ, hR⟩ := hfin.result hv (normalisedNumerator_toNat a _ h63)
  refine ⟨?_, hfin⟩
  rw [hQ, hR, Nat.mul_div_cancel _ (by positivity)]

/-- R111 of the unit: for every divisor the long-division unit gives no result when it is zero, and else `floor(a / b)` and
`a mod b`, whichever branch of R113 it takes and whatever its scratch held. -/
theorem longDivide_spec (old : DivScratch) (a b : Word) :
    (longDivide old a b).result =
      if b = 0 then none else some (BitVec.ofNat 256 (a.toNat / b.toNat), BitVec.ofNat 256 (a.toNat % b.toNat)) := by
  unfold longDivide
  simp only
  by_cases h0 : siglimbs b = 0
  · rw [if_pos h0, if_pos ((siglimbs_eq_zero b).1 h0)]
  have hb0 : b ≠ 0 := fun h => h0 ((siglimbs_eq_zero b).2 h)
  obtain ⟨hfit, htop⟩ := siglimbs_spec b h0
  rw [if_neg h0, if_neg hb0]
  by_cases h1 : siglimbs b = 1
  · rw [if_pos h1]
    rw [h1] at hfit htop
    have hd : limb b 0 ≠ 0 := htop
    have hb : b.toNat = (limb b 0).toNat := by
      rw [limb_toNat]
      have : b.toNat < 2 ^ 64 := hfit
      simp only [Nat.mul_zero, pow_zero, Nat.div_one]
      exact (Nat.mod_eq_of_lt this).symm
    have hc : limb (stage a) 4 = 0 := by
      apply BitVec.eq_of_toNat_eq
      have := a.isLt
      rw [limb_toNat, stage, BitVec.toNat_setWidth]
      show a.toNat % 2 ^ 320 / 2 ^ (64 * 4) % 2 ^ 64 = 0
      omega
    rw [hc]
    obtain ⟨hq, hr⟩ := limbChain_spec a (limb b 0) hd
    rw [hb, ← hq, ← hr]
    simp only [BitVec.ofNat_toNat, BitVec.setWidth_eq]
    rfl
  · rw [if_neg h1]
    apply fun hn hb ht => (knuthDivide_spec (siglimbs b) a b hn hb ht).1
    · have : (siglimbs b).val ≠ 0 := fun h => h0 (Fin.ext h)
      have : (siglimbs b).val ≠ 1 := fun h => h1 (Fin.ext h)
      omega
    · exact hfit
    · exact htop

end Sys2Proof.Machine
end

