-- ==== Sys2Proof/Laws/ModularInverse.lean ====
section
/-! SUPPORT. The Euclid pipeline computes the modular inverse (spec 44_modular_inverse.md R164, R165), so the pipeline of R157 to R161
gives the result rule R156. -/

namespace Sys2Proof.Machine

/-- R158: `r_K ≡ t_K * a (mod m)`. -/
theorem EuclidInv.bez0_modEq {a m : Word} {e : Euclid} (h : EuclidInv a m e) :
    (e.r0.toNat : ℤ) ≡ euclidSign e.kOdd * e.t0.toNat * a.toNat [ZMOD m.toNat] := Int.modEq_iff_dvd.2 h.bez0

/-- R158: `r_{K+1} ≡ t_{K+1} * a (mod m)`. -/
theorem EuclidInv.bez1_modEq {a m : Word} {e : Euclid} (h : EuclidInv a m e) :
    (e.r1.toNat : ℤ) ≡ -(euclidSign e.kOdd) * e.t1.toNat * a.toNat [ZMOD m.toNat] := Int.modEq_iff_dvd.2 h.bez1

/-- R165: the sign alternates. -/
theorem euclidSign_not (k : Bool) : euclidSign (!k) = -(euclidSign k) := by cases k <;> rfl

/-- What the unit's division gives for a non-zero divisor, as integers. -/
theorem longDivide_getD (old : DivScratch) (x y : Word) (hy : y ≠ 0) :
    ∃ q r : Word, (longDivide old x y).result = some (q, r) ∧ q.toNat = x.toNat / y.toNat ∧ r.toNat = x.toNat % y.toNat := by
  refine ⟨_, _, by rw [longDivide_spec, if_neg hy], ?_, ?_⟩
  · rw [BitVec.toNat_ofNat, Nat.mod_eq_of_lt]
    exact lt_of_le_of_lt (Nat.div_le_self _ _) x.isLt
  · rw [BitVec.toNat_ofNat, Nat.mod_eq_of_lt]
    exact lt_of_le_of_lt (Nat.mod_le _ _) x.isLt

theorem toNat_pos_of_ne_zero {w : Nat} (x : BitVec w) (h : x ≠ 0) : 0 < x.toNat :=
  Nat.pos_of_ne_zero fun h' => h (BitVec.eq_of_toNat_eq (by simpa using h'))

/-- R158: the load. -/
theorem euclidLoad_inv (old : DivScratch) (a m : Word) (hm : m ≠ 0) : EuclidInv a m (euclidLoad old a m).regs := by
  obtain ⟨q, r, hres, -, hr⟩ := longDivide_getD old a m hm
  have hpos := toNat_pos_of_ne_zero m hm
  have hregs : (euclidLoad old a m).regs = { r0 := m, r1 := r, t0 := 0, t1 := 1, kOdd := false } := by
    simp [euclidLoad, hres]
  rw [hregs]
  refine ⟨?_, ?_, ?_, ⟨le_refl _, nofun⟩, ?_, ?_, ?_⟩
  · show m.toNat * 1 + r.toNat * 0 = m.toNat
    omega
  · show r.toNat < m.toNat
    rw [hr]
    exact Nat.mod_lt _ hpos
  · show 0 ≤ 1
    omega
  · show Nat.gcd m.toNat r.toNat = _
    rw [hr, Nat.gcd_comm, ← Nat.gcd_rec, Nat.gcd_comm]
  · show (m.toNat : ℤ) ∣ -1 * ((0 : Nat) : ℤ) * a.toNat - m.toNat
    exact ⟨-1, by push_cast; ring⟩
  · show (m.toNat : ℤ) ∣ -(-1) * ((1 : Nat) : ℤ) * a.toNat - r.toNat
    rw [hr]
    push_cast
    rw [one_mul]
    exact Int.modEq_iff_dvd.1 (Int.mod_modEq _ _)

/-- R159: the registers after one iteration, the wrapping multiply-add being the integer one (R164). -/
theorem euclidStep_spec (a m : Word) (x : EuclidRun) (h : EuclidInv a m x.regs) (h1 : x.regs.r1 ≠ 0) :
    (euclidStep x).regs.r0 = x.regs.r1 ∧ (euclidStep x).regs.r1.toNat = x.regs.r0.toNat % x.regs.r1.toNat ∧
    (euclidStep x).regs.t0 = x.regs.t1 ∧
    (euclidStep x).regs.t1.toNat = x.regs.t0.toNat + x.regs.r0.toNat / x.regs.r1.toNat * x.regs.t1.toNat ∧
    (euclidStep x).regs.t1.toNat ≤ m.toNat ∧ (euclidStep x).regs.kOdd = !x.regs.kOdd := by
  obtain ⟨q, r, hres, hq, hr⟩ := longDivide_getD x.scratch x.regs.r0 x.regs.r1 h1
  have hpos := toNat_pos_of_ne_zero _ h1
  have hregs : (euclidStep x).regs =
      { r0 := x.regs.r1, r1 := r, t0 := x.regs.t1, t1 := x.regs.t0 + q * x.regs.t1, kOdd := !x.regs.kOdd } := by
    simp [euclidStep, hres]
  rw [hregs]
  have hm := m.isLt
  have hdm := Nat.div_add_mod x.regs.r0.toNat x.regs.r1.toNat
  have hb := h.bound
  have hle : x.regs.t0.toNat + x.regs.r0.toNat / x.regs.r1.toNat * x.regs.t1.toNat ≤ m.toNat := by
    have e : x.regs.r1.toNat * (x.regs.t0.toNat + x.regs.r0.toNat / x.regs.r1.toNat * x.regs.t1.toNat)
        + x.regs.r0.toNat % x.regs.r1.toNat * x.regs.t1.toNat = m.toNat := by
      rw [← hb]
      conv_rhs => rw [← hdm]
      ring
    calc _ ≤ x.regs.r1.toNat * (x.regs.t0.toNat + x.regs.r0.toNat / x.regs.r1.toNat * x.regs.t1.toNat) :=
        Nat.le_mul_of_pos_left _ hpos
      _ ≤ m.toNat := by rw [← e]; exact Nat.le_add_right _ _
  have ht : (x.regs.t0 + q * x.regs.t1).toNat = x.regs.t0.toNat + x.regs.r0.toNat / x.regs.r1.toNat * x.regs.t1.toNat := by
    rw [BitVec.toNat_add, BitVec.toNat_mul, hq, Nat.add_mod_mod, Nat.mod_eq_of_lt (lt_of_le_of_lt hle hm)]
  exact ⟨rfl, hr, rfl, ht, by rw [ht]; exact hle, rfl⟩

/-- R165 (b): an iteration keeps the invariant. -/
theorem euclidStep_inv (a m : Word) (x : EuclidRun) (h : EuclidInv a m x.regs) (h1 : x.regs.r1 ≠ 0) :
    EuclidInv a m (euclidStep x).regs := by
  obtain ⟨e0, e1, f0, f1, -, k⟩ := euclidStep_spec a m x h h1
  have hpos := toNat_pos_of_ne_zero _ h1
  have hdm := Nat.div_add_mod x.regs.r0.toNat x.regs.r1.toNat
  have hqpos : 0 < x.regs.r0.toNat / x.regs.r1.toNat := Nat.div_pos h.dec.le hpos
  have htop : (euclidStep x).regs.r0.toNat < m.toNat := by rw [e0]; exact lt_of_lt_of_le h.dec h.top.1
  refine ⟨?_, ?_, ?_, ⟨htop.le, fun _ => htop⟩, ?_, ?_, ?_⟩
  · rw [e0, e1, f0, f1, ← h.bound]
    conv_rhs => rw [← hdm]
    ring
  · rw [e0, e1]
    exact Nat.mod_lt _ hpos
  · rw [f0, f1]
    calc _ ≤ x.regs.r0.toNat / x.regs.r1.toNat * x.regs.t1.toNat := Nat.le_mul_of_pos_left _ hqpos
      _ ≤ _ := Nat.le_add_left _ _
  · rw [e0, e1, ← h.gcd, Nat.gcd_comm _ (_ % _), ← Nat.gcd_rec, Nat.gcd_comm]
  · rw [e0, f0, k, euclidSign_not]
    exact h.bez1
  · rw [e1, f1, k, euclidSign_not, neg_neg, ← Int.modEq_iff_dvd]
    have hmod : ((x.regs.r0.toNat % x.regs.r1.toNat : Nat) : ℤ) =
        x.regs.r0.toNat - (x.regs.r0.toNat / x.regs.r1.toNat : Nat) * x.regs.r1.toNat := by
      have : (x.regs.r0.toNat : ℤ) = x.regs.r1.toNat * (x.regs.r0.toNat / x.regs.r1.toNat : Nat)
          + (x.regs.r0.toNat % x.regs.r1.toNat : Nat) := by exact_mod_cast hdm.symm
      linarith
    rw [hmod]
    refine (Int.ModEq.sub h.bez0_modEq (h.bez1_modEq.mul_left _)).trans ?_
    push_cast
    rw [show euclidSign x.regs.kOdd * (x.regs.t0.toNat : ℤ) * a.toNat
        - (x.regs.r0.toNat : ℤ) / x.regs.r1.toNat * (-euclidSign x.regs.kOdd * x.regs.t1.toNat * a.toNat)
        = euclidSign x.regs.kOdd * ((x.regs.t0.toNat : ℤ) + (x.regs.r0.toNat : ℤ) / x.regs.r1.toNat * x.regs.t1.toNat) * a.toNat by ring]

/-- R165 (b): the loop keeps the invariant. -/
theorem euclidLoop_inv (a m : Word) : ∀ (fuel : Nat) (x : EuclidRun), EuclidInv a m x.regs → EuclidInv a m (euclidLoop fuel x).regs := by
  intro fuel
  induction fuel with
  | zero => exact fun x h => h
  | succ k ih =>
    intro x h
    unfold euclidLoop
    split
    · exact h
    · rename_i h1
      exact ih _ (euclidStep_inv a m x h h1)

/-- R168 (without Lamé): every two iterations halve the smaller remainder, so the loop ends within `2k` of them when it is below
`2^k`. -/
theorem euclidLoop_exit (a m : Word) :
    ∀ (k : Nat) (x : EuclidRun), EuclidInv a m x.regs → x.regs.r1.toNat < 2 ^ k → (euclidLoop (2 * k) x).regs.r1 = 0 := by
  intro k
  induction k with
  | zero =>
    intro x _ hk
    apply BitVec.eq_of_toNat_eq
    have : x.regs.r1.toNat = 0 := by omega
    simpa [euclidLoop] using this
  | succ k ih =>
    intro x h hk
    rw [show 2 * (k + 1) = 2 * k + 1 + 1 by ring]
    unfold euclidLoop
    split
    · assumption
    · rename_i h1
      have hx' := euclidStep_inv a m x h h1
      unfold euclidLoop
      split
      · assumption
      · rename_i h2
        apply ih _ (euclidStep_inv a m _ hx' h2)
        obtain ⟨-, e1, -⟩ := euclidStep_spec a m _ hx' h2
        obtain ⟨e0, -⟩ := euclidStep_spec a m x h h1
        have hpos := toNat_pos_of_ne_zero _ h2
        have hdec := hx'.dec
        rw [e0] at e1 hdec
        rw [e1]
        have hm := Nat.mod_lt x.regs.r1.toNat hpos
        have hdm := Nat.div_add_mod x.regs.r1.toNat (euclidStep x).regs.r1.toNat
        have hq : 1 ≤ x.regs.r1.toNat / (euclidStep x).regs.r1.toNat := Nat.div_pos hdec.le hpos
        have : (euclidStep x).regs.r1.toNat * 1 ≤ (euclidStep x).regs.r1.toNat * (x.regs.r1.toNat / (euclidStep x).regs.r1.toNat) :=
          Nat.mul_le_mul_left _ hq
        rw [pow_succ] at hk
        omega

/-- R159: at the model's unrolling the loop has ended, with the invariant, for every non-zero modulus. -/
theorem euclidRun_spec (old : DivScratch) (a m : Word) (hm : m ≠ 0) :
    EuclidInv a m (euclidRun old a m).regs ∧ (euclidRun old a m).regs.r1 = 0 := by
  have h0 := euclidLoad_inv old a m hm
  exact ⟨euclidLoop_inv a m _ _ h0, euclidLoop_exit a m 256 _ h0 (euclidLoad old a m).regs.r1.isLt⟩

/-- R165 (c): on exit `r0` is the gcd. -/
theorem EuclidInv.r0_eq_gcd {a m : Word} {e : Euclid} (h : EuclidInv a m e) (hz : e.r1 = 0) :
    e.r0.toNat = Nat.gcd a.toNat m.toNat := by
  have hz0 : e.r1.toNat = 0 := by rw [hz]; rfl
  rw [← h.gcd, hz0, Nat.gcd_zero_right]

/-- R160, R165 (c): on exit with a gcd that is not 1 the check fails. -/
theorem euclidFixup_none {a m : Word} {e : Euclid} (h : EuclidInv a m e) (hz : e.r1 = 0) (hg : Nat.gcd a.toNat m.toNat ≠ 1) :
    euclidFixup m e = none := by
  unfold euclidFixup
  rw [if_pos]
  intro h1
  apply hg
  rw [← h.r0_eq_gcd hz, h1]
  rfl

/-- R161, R165 (c): on exit with gcd 1 the fix-up is the coefficient `t_K` reduced into `[0, m)`. -/
theorem euclidFixup_some {a m : Word} {e : Euclid} (h : EuclidInv a m e) (hz : e.r1 = 0) (hg : Nat.gcd a.toNat m.toNat = 1) :
    ∃ x, euclidFixup m e = some x ∧ (x.toNat : ℤ) = euclidSign e.kOdd * e.t0.toNat % m.toNat := by
  have hz0 : e.r1.toNat = 0 := by rw [hz]; rfl
  have hr0n : e.r0.toNat = 1 := (h.r0_eq_gcd hz).trans hg
  have ht0 : e.t0.toNat ≤ m.toNat := by
    have hb := h.bound
    have hmo := h.mono
    rw [hz0, hr0n] at hb
    omega
  have hpos : 0 < m.toNat := by have := h.top.1; omega
  -- after an odd number of iterations the remainder is below `m`, so `m > 1` and the coefficient cannot be `m`
  have hlt : e.kOdd = true → e.t0.toNat < m.toNat := by
    intro hk
    by_contra hge
    have he : e.t0.toNat = m.toNat := by omega
    have hd := h.bez0
    rw [hk, hr0n, he] at hd
    have h1 : (m.toNat : ℤ) ∣ euclidSign true * m.toNat * a.toNat := ⟨euclidSign true * a.toNat, by ring⟩
    have h2 := dvd_sub h1 hd
    rw [sub_sub_cancel] at h2
    have h3 : m.toNat ∣ 1 := by exact_mod_cast h2
    have h4 := Nat.dvd_one.1 h3
    have h5 := h.top.2 hk
    omega
  unfold euclidFixup
  rw [if_neg (not_not.2 (BitVec.eq_of_toNat_eq hr0n))]
  by_cases hk : e.kOdd = true
  · rw [if_pos hk]
    refine ⟨_, rfl, ?_⟩
    have hs : euclidSign e.kOdd = 1 := by rw [hk]; rfl
    have := hlt hk
    rw [hs, one_mul, Int.emod_eq_of_lt (by omega) (by omega)]
  · rw [if_neg hk]
    have hs : euclidSign e.kOdd = -1 := by rw [Bool.eq_false_iff.2 hk]; rfl
    rw [hs]
    by_cases h0 : e.t0 = 0
    · rw [if_pos h0]
      exact ⟨0, rfl, by simp [h0]⟩
    · rw [if_neg h0]
      have hp0 := toNat_pos_of_ne_zero _ h0
      have hsub : (m - e.t0).toNat = m.toNat - e.t0.toNat := BitVec.toNat_sub_of_le (BitVec.le_def.2 ht0)
      refine ⟨_, rfl, ?_⟩
      rw [hsub, show (-1 : ℤ) * e.t0.toNat = (m.toNat - e.t0.toNat : ℤ) + m.toNat * (-1) by ring, Int.add_mul_emod_self_left,
        Int.emod_eq_of_lt (by omega) (by omega)]
      omega

/-- R156, R165: for a non-zero modulus the pipeline gives nothing when the gcd is not 1, and otherwise the inverse in `[0, m)`. -/
theorem euclidFixup_spec (old : DivScratch) (a m : Word) (hm : m ≠ 0) :
    if Nat.gcd a.toNat m.toNat = 1 then
      ∃ x, euclidFixup m (euclidRun old a m).regs = some x ∧ x.toNat < m.toNat ∧ a.toNat * x.toNat ≡ 1 [MOD m.toNat]
    else euclidFixup m (euclidRun old a m).regs = none := by
  obtain ⟨h, hz⟩ := euclidRun_spec old a m hm
  generalize (euclidRun old a m).regs = e at *
  have hpos : (0 : ℤ) < m.toNat := by exact_mod_cast toNat_pos_of_ne_zero m hm
  split
  · rename_i hg
    obtain ⟨x, hx, hv⟩ := euclidFixup_some h hz hg
    refine ⟨x, hx, by have := Int.emod_lt_of_pos (euclidSign e.kOdd * e.t0.toNat) hpos; omega, ?_⟩
    have hb := h.bez0_modEq
    rw [h.r0_eq_gcd hz, hg] at hb
    rw [← Int.natCast_modEq_iff]
    push_cast at hb ⊢
    rw [hv]
    calc (a.toNat : ℤ) * (euclidSign e.kOdd * e.t0.toNat % m.toNat)
        ≡ a.toNat * (euclidSign e.kOdd * e.t0.toNat) [ZMOD m.toNat] := (Int.mod_modEq _ _).mul_left _
      _ = euclidSign e.kOdd * e.t0.toNat * a.toNat := by ring
      _ ≡ 1 [ZMOD m.toNat] := hb.symm
  · rename_i hg
    exact euclidFixup_none h hz hg

/-- R165 (d): two inverses in `[0, m)` are equal. -/
theorem modularInverse_unique (a m x y : Nat) (hx : x < m) (hy : y < m) (ex : a * x ≡ 1 [MOD m]) (ey : a * y ≡ 1 [MOD m]) :
    x = y := by
  have e : x ≡ y [MOD m] := by
    have h1 : x * (a * y) ≡ x * 1 [MOD m] := ey.mul_left x
    have h2 : y * (a * x) ≡ y * 1 [MOD m] := ex.mul_left y
    rw [Nat.mul_one] at h1 h2
    rw [show x * (a * y) = y * (a * x) by ring] at h1
    exact h1.symm.trans h2
  rwa [Nat.ModEq, Nat.mod_eq_of_lt hx, Nat.mod_eq_of_lt hy] at e

end Sys2Proof.Machine
end

