-- ==== Sys2Proof/Laws/RingInverse.lean ====
section
/-! SUPPORT. The ring-inverse engine computes the inverse modulo 2^256 (spec 43_ring_inverse.md R142, R147), so the engine of R143 to
R146 gives the result rule R141. -/

namespace Sys2Proof.Machine

/-- R13: a wrapping product is the integer product modulo `2^w`. -/
theorem toNat_mul_modEq {w : Nat} (x y : BitVec w) : ((x * y).toNat : ℤ) ≡ x.toNat * y.toNat [ZMOD 2 ^ w] := by
  rw [BitVec.toNat_mul]
  push_cast
  exact Int.mod_modEq _ _

/-- R13: a wrapping difference is the integer difference modulo `2^w`. -/
theorem toNat_sub_modEq {w : Nat} (x y : BitVec w) : ((x - y).toNat : ℤ) ≡ x.toNat - y.toNat [ZMOD 2 ^ w] := by
  have hy := y.isLt
  rw [BitVec.toNat_sub]
  push_cast [hy.le]
  refine (Int.mod_modEq _ _).trans ?_
  rw [show (2 : ℤ) ^ w - y.toNat + x.toNat = (x.toNat - y.toNat) + 2 ^ w by ring]
  exact Int.add_modEq_right

/-- R147: one doubling step doubles the number of correct low bits, up to the working width. -/
theorem newtonStep_doubles {w : Nat} (c r : BitVec w) (p : Nat) (hp : 2 * p ≤ w)
    (h : (c.toNat : ℤ) * r.toNat ≡ 1 [ZMOD 2 ^ p]) : (c.toNat : ℤ) * (newtonStep c r).toNat ≡ 1 [ZMOD 2 ^ (2 * p)] := by
  have hw : ((2 : ℤ) ^ (2 * p)) ∣ 2 ^ w := pow_dvd_pow 2 hp
  have two : (((2 : BitVec w)).toNat : ℤ) ≡ 2 [ZMOD 2 ^ w] := by
    rw [show (2 : BitVec w).toNat = 2 % 2 ^ w from rfl]
    push_cast
    exact Int.mod_modEq _ _
  have e1 : ((newtonStep c r).toNat : ℤ) ≡ r.toNat * (2 - c.toNat * r.toNat) [ZMOD 2 ^ w] :=
    (toNat_mul_modEq _ _).trans (Int.ModEq.mul_left _
      ((toNat_sub_modEq _ _).trans (Int.ModEq.sub two (toNat_mul_modEq _ _))))
  have e2 := (e1.of_dvd hw).mul_left (c.toNat : ℤ)
  refine e2.trans ?_
  obtain ⟨k, hk⟩ := h.symm.dvd
  rw [Int.modEq_iff_dvd]
  refine ⟨k ^ 2, ?_⟩
  have hc : (c.toNat : ℤ) * r.toNat = 1 + 2 ^ p * k := by linarith
  calc 1 - (c.toNat : ℤ) * (r.toNat * (2 - c.toNat * r.toNat)) = (c.toNat * r.toNat - 1) ^ 2 := by ring
    _ = (2 ^ p * k) ^ 2 := by rw [hc]; ring
    _ = 2 ^ (2 * p) * k ^ 2 := by ring

/-- R143: for an odd low limb the seed is exact for the 4 bits the source states. -/
theorem henselSeed_spec (c : Limb) (hc : c.getLsbD 0 = true) : (c.toNat : ℤ) * (henselSeed c).toNat ≡ 1 [ZMOD 2 ^ 4] := by
  have low : ∀ x : BitVec 4, x.getLsbD 0 = true → x * ((3 * x) ^^^ 2) = 1 := by decide
  have h4 := low (c.setWidth 4) (by simpa using hc)
  have hs : (c * henselSeed c).setWidth 4 = 1 := by
    rw [BitVec.setWidth_mul _ _ (by omega), henselSeed, BitVec.setWidth_xor, BitVec.setWidth_mul _ _ (by omega)]
    exact h4
  have hn := congrArg BitVec.toNat hs
  rw [BitVec.toNat_setWidth] at hn
  have hz : ((c * henselSeed c).toNat : ℤ) ≡ 1 [ZMOD 2 ^ 4] := by
    have : (((c * henselSeed c).toNat % 2 ^ 4 : Nat) : ℤ) = 1 := by rw [hn]; rfl
    push_cast at this
    exact this
  exact ((toNat_mul_modEq c (henselSeed c)).symm.of_dvd (pow_dvd_pow 2 (by omega))).trans hz

/-- R144: four steps reach the inverse modulo `2^64`. -/
theorem hensel64_spec (c : Limb) (hc : c.getLsbD 0 = true) : (c.toNat : ℤ) * (hensel64 c).toNat ≡ 1 [ZMOD 2 ^ 64] :=
  newtonStep_doubles c _ 32 (by omega) (newtonStep_doubles c _ 16 (by omega)
    (newtonStep_doubles c _ 8 (by omega) (newtonStep_doubles c _ 4 (by omega) (henselSeed_spec c hc))))

/-- A value and its low `k` bits agree modulo `2^k`. -/
theorem toNat_setWidth_modEq (a : Word) (k : Nat) : ((a.setWidth k).toNat : ℤ) ≡ a.toNat [ZMOD 2 ^ k] := by
  rw [BitVec.toNat_setWidth]
  push_cast
  exact Int.mod_modEq _ _

/-- R145: the step at 128 bits reaches the inverse modulo `2^128`. -/
theorem hensel128_spec (a : Word) (ha : isOdd a = true) : (a.toNat : ℤ) * (hensel128 a).toNat ≡ 1 [ZMOD 2 ^ 128] := by
  have hl : (limb a 0).getLsbD 0 = true := by simpa [limb, isOdd] using ha
  have h64 := hensel64_spec (limb a 0) hl
  have hlo : ((limb a 0).toNat : ℤ) ≡ (a.setWidth 128).toNat [ZMOD 2 ^ 64] := by
    have e : limb a 0 = a.setWidth 64 := by
      apply BitVec.eq_of_toNat_eq
      rw [limb_toNat, BitVec.toNat_setWidth]
      simp
    rw [e]
    exact (toNat_setWidth_modEq a 64).trans
      ((toNat_setWidth_modEq a 128).symm.of_dvd (pow_dvd_pow 2 (by omega)))
  have hup : ((hensel64 (limb a 0)).setWidth 128).toNat = (hensel64 (limb a 0)).toNat := by
    rw [BitVec.toNat_setWidth]
    exact Nat.mod_eq_of_lt (lt_trans (hensel64 (limb a 0)).isLt (by norm_num))
  have h := newtonStep_doubles (a.setWidth 128) ((hensel64 (limb a 0)).setWidth 128) 64 (by omega)
    (by rw [hup]; exact (hlo.symm.mul_right _).trans h64)
  exact ((toNat_setWidth_modEq a 128).symm.mul_right _).trans h

/-- A value of width `w` that is 1 modulo `2^w` is 1. -/
theorem eq_one_of_modEq {w : Nat} (hw : 0 < w) (x : BitVec w) (h : (x.toNat : ℤ) ≡ 1 [ZMOD 2 ^ w]) : x = 1 := by
  have h' : x.toNat ≡ 1 [MOD 2 ^ w] := by
    rw [← Int.natCast_modEq_iff]
    push_cast
    exact h
  apply BitVec.eq_of_toNat_eq
  have h1 : 1 < 2 ^ w := Nat.one_lt_two_pow (by omega)
  rw [Nat.ModEq, Nat.mod_eq_of_lt x.isLt] at h'
  exact h'

/-- In a ring of bit vectors two right inverses of one value are equal. -/
theorem inverse_unique {w : Nat} (a x y : BitVec w) (hx : a * x = 1) (hy : a * y = 1) : x = y := by
  have e : x * (a * y) = y * (a * x) := by ac_rfl
  rw [hx, hy] at e
  exact (BitVec.mul_one x).symm.trans (e.trans (BitVec.mul_one y))

/-- R141, R147: for odd `a` the engine's result times `a` is 1 modulo `2^256`. -/
theorem henselInverse_spec (a : Word) (ha : isOdd a = true) : a * henselInverse a = 1 := by
  have hup : ((hensel128 a).setWidth 256).toNat = (hensel128 a).toNat := by
    rw [BitVec.toNat_setWidth]
    exact Nat.mod_eq_of_lt (lt_trans (hensel128 a).isLt (by norm_num))
  have h := newtonStep_doubles a ((hensel128 a).setWidth 256) 128 (by omega) (by rw [hup]; exact hensel128_spec a ha)
  have hz : ((a * henselInverse a).toNat : ℤ) ≡ 1 [ZMOD 2 ^ 256] := (toNat_mul_modEq _ _).trans h
  exact eq_one_of_modEq (by omega) _ hz

/-- R142: the inverse is unique. -/
theorem henselInverse_unique (a x : Word) (ha : isOdd a = true) (hx : a * x = 1) : x = henselInverse a :=
  inverse_unique a x _ hx (henselInverse_spec a ha)

end Sys2Proof.Machine
end

