-- ==== Sys2Proof/Laws/State.lean ====
section
/-! SUPPORT. What each named operation leaves of each field of the state: one lemma per field per operation, true by rfl, so that no
proof unfolds a record update (spec 10_state.md R40; 60_exceptions.md R193, R195, R200; 70_reset_and_hazards.md R220). -/

namespace Sys2Proof.Machine

/-! ### Issue (R40) -/

@[simp] theorem issue_a (i : Instr) (s : State) : (issue i s).a = s.a := rfl
@[simp] theorem issue_b (i : Instr) (s : State) : (issue i s).b = s.b := rfl
@[simp] theorem issue_d (i : Instr) (s : State) : (issue i s).d = s.d := rfl
@[simp] theorem issue_q (i : Instr) (s : State) : (issue i s).q = s.q := rfl
@[simp] theorem issue_r (i : Instr) (s : State) : (issue i s).r = s.r := rfl
@[simp] theorem issue_status (i : Instr) (s : State) : (issue i s).status = s.status.issued := rfl
@[simp] theorem issue_flight (i : Instr) (s : State) : (issue i s).flight = { op := i, sa := s.a, sb := s.b, sd := s.d } := rfl
@[simp] theorem issue_scratch (i : Instr) (s : State) : (issue i s).scratch = s.scratch := rfl
@[simp] theorem issue_hensel (i : Instr) (s : State) : (issue i s).hensel = s.hensel := rfl
@[simp] theorem issue_euclid (i : Instr) (s : State) : (issue i s).euclid = s.euclid := rfl
@[simp] theorem issue_host (i : Instr) (s : State) : (issue i s).host = s.host := rfl
@[simp] theorem issue_seen (i : Instr) (s : State) : (issue i s).seen = s.seen := rfl
@[simp] theorem issue_turns (i : Instr) (s : State) : (issue i s).turns = s.turns := rfl
@[simp] theorem issue_draws (i : Instr) (s : State) : (issue i s).draws = s.draws := rfl

/-! ### A result is present (R16) -/

@[simp] theorem resultPresent_a (s : State) : (resultPresent s).a = s.a := rfl
@[simp] theorem resultPresent_b (s : State) : (resultPresent s).b = s.b := rfl
@[simp] theorem resultPresent_d (s : State) : (resultPresent s).d = s.d := rfl
@[simp] theorem resultPresent_q (s : State) : (resultPresent s).q = s.q := rfl
@[simp] theorem resultPresent_r (s : State) : (resultPresent s).r = s.r := rfl
@[simp] theorem resultPresent_status (s : State) : (resultPresent s).status = s.status.present := rfl
@[simp] theorem resultPresent_flight (s : State) : (resultPresent s).flight = s.flight := rfl
@[simp] theorem resultPresent_scratch (s : State) : (resultPresent s).scratch = s.scratch := rfl
@[simp] theorem resultPresent_hensel (s : State) : (resultPresent s).hensel = s.hensel := rfl
@[simp] theorem resultPresent_euclid (s : State) : (resultPresent s).euclid = s.euclid := rfl
@[simp] theorem resultPresent_host (s : State) : (resultPresent s).host = s.host := rfl
@[simp] theorem resultPresent_seen (s : State) : (resultPresent s).seen = s.seen := rfl
@[simp] theorem resultPresent_turns (s : State) : (resultPresent s).turns = s.turns := rfl
@[simp] theorem resultPresent_draws (s : State) : (resultPresent s).draws = s.draws := rfl

/-! ### No result (R193) -/

@[simp] theorem resultNone_a (e : ErrKind) (s : State) : (resultNone e s).a = s.a := rfl
@[simp] theorem resultNone_b (e : ErrKind) (s : State) : (resultNone e s).b = s.b := rfl
@[simp] theorem resultNone_d (e : ErrKind) (s : State) : (resultNone e s).d = s.d := rfl
@[simp] theorem resultNone_q (e : ErrKind) (s : State) : (resultNone e s).q = s.q := rfl
@[simp] theorem resultNone_r (e : ErrKind) (s : State) : (resultNone e s).r = s.r := rfl
@[simp] theorem resultNone_status (e : ErrKind) (s : State) : (resultNone e s).status = s.status.absent e := rfl
@[simp] theorem resultNone_flight (e : ErrKind) (s : State) : (resultNone e s).flight = s.flight := rfl
@[simp] theorem resultNone_scratch (e : ErrKind) (s : State) : (resultNone e s).scratch = s.scratch := rfl
@[simp] theorem resultNone_hensel (e : ErrKind) (s : State) : (resultNone e s).hensel = s.hensel := rfl
@[simp] theorem resultNone_euclid (e : ErrKind) (s : State) : (resultNone e s).euclid = s.euclid := rfl
@[simp] theorem resultNone_host (e : ErrKind) (s : State) : (resultNone e s).host = s.host := rfl
@[simp] theorem resultNone_seen (e : ErrKind) (s : State) : (resultNone e s).seen = s.seen := rfl
@[simp] theorem resultNone_turns (e : ErrKind) (s : State) : (resultNone e s).turns = s.turns := rfl
@[simp] theorem resultNone_draws (e : ErrKind) (s : State) : (resultNone e s).draws = s.draws := rfl

/-! ### The abort trap (R200) -/

@[simp] theorem raiseAbort_a (s : State) : (raiseAbort s).a = s.a := rfl
@[simp] theorem raiseAbort_b (s : State) : (raiseAbort s).b = s.b := rfl
@[simp] theorem raiseAbort_d (s : State) : (raiseAbort s).d = s.d := rfl
@[simp] theorem raiseAbort_q (s : State) : (raiseAbort s).q = s.q := rfl
@[simp] theorem raiseAbort_r (s : State) : (raiseAbort s).r = s.r := rfl
@[simp] theorem raiseAbort_status (s : State) : (raiseAbort s).status = s.status.aborted := rfl
@[simp] theorem raiseAbort_flight (s : State) : (raiseAbort s).flight = s.flight := rfl
@[simp] theorem raiseAbort_scratch (s : State) : (raiseAbort s).scratch = s.scratch := rfl
@[simp] theorem raiseAbort_hensel (s : State) : (raiseAbort s).hensel = s.hensel := rfl
@[simp] theorem raiseAbort_euclid (s : State) : (raiseAbort s).euclid = s.euclid := rfl
@[simp] theorem raiseAbort_host (s : State) : (raiseAbort s).host = s.host := rfl
@[simp] theorem raiseAbort_seen (s : State) : (raiseAbort s).seen = s.seen := rfl
@[simp] theorem raiseAbort_turns (s : State) : (raiseAbort s).turns = s.turns := rfl
@[simp] theorem raiseAbort_draws (s : State) : (raiseAbort s).draws = s.draws := rfl

/-! ### An illegal command word (R195) -/

@[simp] theorem illegalCommand_a (s : State) : (illegalCommand s).a = s.a := rfl
@[simp] theorem illegalCommand_b (s : State) : (illegalCommand s).b = s.b := rfl
@[simp] theorem illegalCommand_d (s : State) : (illegalCommand s).d = s.d := rfl
@[simp] theorem illegalCommand_q (s : State) : (illegalCommand s).q = s.q := rfl
@[simp] theorem illegalCommand_r (s : State) : (illegalCommand s).r = s.r := rfl
@[simp] theorem illegalCommand_status (s : State) : (illegalCommand s).status = s.status.illegal := rfl
@[simp] theorem illegalCommand_flight (s : State) : (illegalCommand s).flight = s.flight := rfl
@[simp] theorem illegalCommand_scratch (s : State) : (illegalCommand s).scratch = s.scratch := rfl
@[simp] theorem illegalCommand_hensel (s : State) : (illegalCommand s).hensel = s.hensel := rfl
@[simp] theorem illegalCommand_euclid (s : State) : (illegalCommand s).euclid = s.euclid := rfl
@[simp] theorem illegalCommand_host (s : State) : (illegalCommand s).host = s.host := rfl
@[simp] theorem illegalCommand_seen (s : State) : (illegalCommand s).seen = s.seen := rfl
@[simp] theorem illegalCommand_turns (s : State) : (illegalCommand s).turns = s.turns := rfl
@[simp] theorem illegalCommand_draws (s : State) : (illegalCommand s).draws = s.draws := rfl

/-! ### The `Reset` step (R220); what is drawn is free -/

@[simp] theorem resetUnit_status (s : State) : (resetUnit s).status = Status.reset := rfl
@[simp] theorem resetUnit_flight (s : State) : (resetUnit s).flight = s.flight := rfl
@[simp] theorem resetUnit_host (s : State) : (resetUnit s).host = s.host := rfl
@[simp] theorem resetUnit_seen (s : State) : (resetUnit s).seen = s.seen := rfl
@[simp] theorem resetUnit_turns (s : State) : (resetUnit s).turns = s.turns := rfl
@[simp] theorem resetUnit_draws (s : State) : (resetUnit s).draws = s.draws + resetDraws := rfl

/-! ### Using up a turn -/

@[simp] theorem dropTurn_a (s : State) : (dropTurn s).a = s.a := rfl
@[simp] theorem dropTurn_b (s : State) : (dropTurn s).b = s.b := rfl
@[simp] theorem dropTurn_d (s : State) : (dropTurn s).d = s.d := rfl
@[simp] theorem dropTurn_q (s : State) : (dropTurn s).q = s.q := rfl
@[simp] theorem dropTurn_r (s : State) : (dropTurn s).r = s.r := rfl
@[simp] theorem dropTurn_status (s : State) : (dropTurn s).status = s.status := rfl
@[simp] theorem dropTurn_flight (s : State) : (dropTurn s).flight = s.flight := rfl
@[simp] theorem dropTurn_scratch (s : State) : (dropTurn s).scratch = s.scratch := rfl
@[simp] theorem dropTurn_hensel (s : State) : (dropTurn s).hensel = s.hensel := rfl
@[simp] theorem dropTurn_euclid (s : State) : (dropTurn s).euclid = s.euclid := rfl
@[simp] theorem dropTurn_host (s : State) : (dropTurn s).host = s.host := rfl
@[simp] theorem dropTurn_seen (s : State) : (dropTurn s).seen = s.seen := rfl
@[simp] theorem dropTurn_turns (s : State) : (dropTurn s).turns = s.turns.tail := rfl
@[simp] theorem dropTurn_draws (s : State) : (dropTurn s).draws = s.draws := rfl

/-! ### The fields of STATUS after each change (R29 to R32) -/

@[simp] theorem Status.issued_busy (x : Status) : x.issued.busy = true := rfl
@[simp] theorem Status.issued_valid (x : Status) : x.issued.valid = false := rfl
@[simp] theorem Status.issued_err (x : Status) : x.issued.err = .none := rfl
@[simp] theorem Status.issued_abort (x : Status) : x.issued.abort = x.abort := rfl
@[simp] theorem Status.present_busy (x : Status) : x.present.busy = false := rfl
@[simp] theorem Status.present_valid (x : Status) : x.present.valid = true := rfl
@[simp] theorem Status.present_err (x : Status) : x.present.err = .none := rfl
@[simp] theorem Status.present_abort (x : Status) : x.present.abort = x.abort := rfl
@[simp] theorem Status.absent_busy (x : Status) (e : ErrKind) : (x.absent e).busy = false := rfl
@[simp] theorem Status.absent_valid (x : Status) (e : ErrKind) : (x.absent e).valid = false := rfl
@[simp] theorem Status.absent_err (x : Status) (e : ErrKind) : (x.absent e).err = e := rfl
@[simp] theorem Status.absent_abort (x : Status) (e : ErrKind) : (x.absent e).abort = x.abort := rfl
@[simp] theorem Status.illegal_busy (x : Status) : x.illegal.busy = x.busy := rfl
@[simp] theorem Status.illegal_valid (x : Status) : x.illegal.valid = false := rfl
@[simp] theorem Status.illegal_err (x : Status) : x.illegal.err = .illegalCommand := rfl
@[simp] theorem Status.illegal_abort (x : Status) : x.illegal.abort = x.abort := rfl
@[simp] theorem Status.aborted_busy (x : Status) : x.aborted.busy = false := rfl
@[simp] theorem Status.aborted_valid (x : Status) : x.aborted.valid = false := rfl
@[simp] theorem Status.aborted_err (x : Status) : x.aborted.err = .divisionByZero := rfl
@[simp] theorem Status.aborted_abort (x : Status) : x.aborted.abort = true := rfl
@[simp] theorem Status.reset_busy : Status.reset.busy = false := rfl
@[simp] theorem Status.reset_valid : Status.reset.valid = false := rfl
@[simp] theorem Status.reset_err : Status.reset.err = .none := rfl
@[simp] theorem Status.reset_abort : Status.reset.abort = false := rfl

/-! ### The snapshot operands (R35) -/

@[simp] theorem sa_issue (i : Instr) (s : State) : (issue i s).sa = s.a := rfl
@[simp] theorem sb_issue (i : Instr) (s : State) : (issue i s).sb = s.b := rfl
@[simp] theorem sd_issue (i : Instr) (s : State) : (issue i s).sd = s.d := rfl
@[simp] theorem sa_dropTurn (s : State) : (dropTurn s).sa = s.sa := rfl
@[simp] theorem sb_dropTurn (s : State) : (dropTurn s).sb = s.sb := rfl
@[simp] theorem sd_dropTurn (s : State) : (dropTurn s).sd = s.sd := rfl

end Sys2Proof.Machine
end

