-- ==== Sys2Proof/Laws/Commands.lean ====
section
/-! SUPPORT. What a completion can do, said once (spec 10_state.md R40): the shared operator division, and for every command the three
ways it ends. -/

namespace Sys2Proof.Machine

/-- R175: the shared part of DIV, REM, DIVA, REMA: an abort on a zero divisor, else the kept half of floor and mod. -/
theorem operatorDivide_spec (keep : Word × Word → State → State) (s : State) :
    operatorDivide keep s =
      if s.sb = 0 then .next (raiseAbort { s with scratch := (longDivide s.scratch s.sa s.sb).scratch })
      else .next (resultPresent (keep
        (BitVec.ofNat 256 (s.sa.toNat / s.sb.toNat), BitVec.ofNat 256 (s.sa.toNat % s.sb.toNat))
        { s with scratch := (longDivide s.scratch s.sa s.sb).scratch })) := by
  have h := longDivide_spec s.scratch s.sa s.sb
  unfold operatorDivide
  simp only
  split_ifs at h ⊢ <;> rw [h]

/-- R24, R25: a register that takes a quotient or a remainder of 256-bit values loses nothing. -/
theorem ofNat_div_toNat (x y : Word) : (BitVec.ofNat 256 (x.toNat / y.toNat)).toNat = x.toNat / y.toNat := by
  rw [BitVec.toNat_ofNat, Nat.mod_eq_of_lt (lt_of_le_of_lt (Nat.div_le_self _ _) x.isLt)]

theorem ofNat_mod_toNat (x y : Word) : (BitVec.ofNat 256 (x.toNat % y.toNat)).toNat = x.toNat % y.toNat := by
  rw [BitVec.toNat_ofNat, Nat.mod_eq_of_lt (lt_of_le_of_lt (Nat.mod_le _ _) x.isLt)]

/-! One equation per command and way it ends, in the terms of its datapath, so that no later proof unfolds a meaning. -/

theorem exec_divrem64_zero {s : State} (h : s.sd = 0) : exec .divrem64 s = .next (resultNone .divisionByZero s) := by
  simp only [exec, execDivrem64, if_pos h]

theorem exec_divrem64_nonzero {s : State} (h : s.sd ≠ 0) : exec .divrem64 s =
    .next (resultPresent { s with q := (limbChain 0 s.sa s.sd).quot, r := ofLimb (limbChain 0 s.sa s.sd).rem }) := by
  simp only [exec, execDivrem64, if_neg h]

theorem exec_divrem256_zero {s : State} (h : s.sb = 0) : exec .divrem256 s =
    .next (resultNone .divisionByZero { s with scratch := (longDivide s.scratch s.sa s.sb).scratch }) := by
  have hr := longDivide_spec s.scratch s.sa s.sb
  rw [if_pos h] at hr
  simp only [exec, execDivrem256, hr]

theorem exec_divrem256_nonzero {s : State} (h : s.sb ≠ 0) : exec .divrem256 s =
    .next (resultPresent { s with
      scratch := (longDivide s.scratch s.sa s.sb).scratch
      q := BitVec.ofNat 256 (s.sa.toNat / s.sb.toNat), r := BitVec.ofNat 256 (s.sa.toNat % s.sb.toNat) }) := by
  have hr := longDivide_spec s.scratch s.sa s.sb
  rw [if_neg h] at hr
  simp only [exec, execDivrem256, hr]

theorem exec_inv_even {s : State} (h : isOdd s.sa = false) : exec .inv s = .next (resultNone .noInverseExists s) := by
  simp only [exec, execInv, h, Bool.false_eq_true, if_false]

theorem exec_inv_odd {s : State} (h : isOdd s.sa = true) : exec .inv s =
    .next (resultPresent { s with q := henselInverse s.sa, hensel := henselInverse s.sa }) := by
  simp only [exec, execInv, if_pos h]

theorem exec_invmod_zero {s : State} (h : s.sb = 0) : exec .invmod s = .next (resultNone .noInverseExists s) := by
  simp only [exec, execInvmod, if_pos h]

theorem exec_invmod_none {s : State} (h : s.sb ≠ 0)
    (hf : euclidFixup s.sb (euclidRun s.scratch s.sa s.sb).regs = none) : exec .invmod s =
    .next (resultNone .noInverseExists { s with
      scratch := (euclidRun s.scratch s.sa s.sb).scratch, euclid := (euclidRun s.scratch s.sa s.sb).regs }) := by
  simp only [exec, execInvmod, if_neg h, hf]

theorem exec_invmod_some {s : State} {v : Word} (h : s.sb ≠ 0)
    (hf : euclidFixup s.sb (euclidRun s.scratch s.sa s.sb).regs = some v) : exec .invmod s =
    .next (resultPresent { s with
      scratch := (euclidRun s.scratch s.sa s.sb).scratch, euclid := (euclidRun s.scratch s.sa s.sb).regs, q := v }) := by
  simp only [exec, execInvmod, if_neg h, hf]

/-- R175: the four operator commands with a zero divisor. -/
theorem exec_operator_zero {i : Instr} {s : State} (hi : i = .div ∨ i = .rem ∨ i = .diva ∨ i = .rema) (h : s.sb = 0) :
    exec i s = .next (raiseAbort { s with scratch := (longDivide s.scratch s.sa s.sb).scratch }) := by
  rcases hi with rfl | rfl | rfl | rfl <;>
    simp only [exec, execDiv, execRem, execDiva, execRema, operatorDivide_spec, if_pos h]

theorem exec_div_nonzero {s : State} (h : s.sb ≠ 0) : exec .div s =
    .next (resultPresent { s with
      scratch := (longDivide s.scratch s.sa s.sb).scratch, q := BitVec.ofNat 256 (s.sa.toNat / s.sb.toNat) }) := by
  simp only [exec, execDiv, operatorDivide_spec, if_neg h]

theorem exec_rem_nonzero {s : State} (h : s.sb ≠ 0) : exec .rem s =
    .next (resultPresent { s with
      scratch := (longDivide s.scratch s.sa s.sb).scratch, r := BitVec.ofNat 256 (s.sa.toNat % s.sb.toNat) }) := by
  simp only [exec, execRem, operatorDivide_spec, if_neg h]

theorem exec_diva_nonzero {s : State} (h : s.sb ≠ 0) : exec .diva s =
    .next (resultPresent { s with
      scratch := (longDivide s.scratch s.sa s.sb).scratch, a := BitVec.ofNat 256 (s.sa.toNat / s.sb.toNat) }) := by
  simp only [exec, execDiva, operatorDivide_spec, if_neg h]

theorem exec_rema_nonzero {s : State} (h : s.sb ≠ 0) : exec .rema s =
    .next (resultPresent { s with
      scratch := (longDivide s.scratch s.sa s.sb).scratch, a := BitVec.ofNat 256 (s.sa.toNat % s.sb.toNat) }) := by
  simp only [exec, execRema, operatorDivide_spec, if_neg h]

/-- R193, R194, R200: the three ways a completion ends. `u` is the state with its result registers written, STATUS not yet; without a
result every data register is as it was. -/
def EndsIn (i : Instr) (s : State) : Prop :=
  ∃ u : State, State.SameOwn s u ∧ u.b = s.b ∧ u.d = s.d ∧ u.status = s.status ∧
    (exec i s = .next (resultPresent u) ∨
     (∃ e, (e = .divisionByZero ∨ e = .noInverseExists) ∧ State.SameData s u ∧ exec i s = .next (resultNone e u)) ∨
     (State.SameData s u ∧ exec i s = .next (raiseAbort u)))

/-- R40: every command, from every state, ends in one of the three ways. -/
theorem exec_endsIn (i : Instr) (s : State) : EndsIn i s := by
  have present : ∀ {u : State}, exec i s = .next (resultPresent u) → State.SameOwn s u → u.b = s.b → u.d = s.d →
      u.status = s.status → EndsIn i s := fun h h1 h2 h3 h4 => ⟨_, h1, h2, h3, h4, .inl h⟩
  have none : ∀ {u : State} {e : ErrKind}, exec i s = .next (resultNone e u) → e = .divisionByZero ∨ e = .noInverseExists →
      State.SameOwn s u → State.SameData s u → u.status = s.status → EndsIn i s :=
    fun h he h1 h2 h3 => ⟨_, h1, h2.2.1, h2.2.2.1, h3, .inr (.inl ⟨_, he, h2, h⟩)⟩
  have abort : ∀ {u : State}, exec i s = .next (raiseAbort u) → State.SameOwn s u → State.SameData s u → u.status = s.status →
      EndsIn i s := fun h h1 h2 h3 => ⟨_, h1, h2.2.1, h2.2.2.1, h3, .inr (.inr ⟨h2, h⟩)⟩
  cases i with
  | divrem64 =>
    by_cases h : s.sd = 0
    · exact none (exec_divrem64_zero h) (.inl rfl) ⟨rfl, rfl, rfl, rfl, rfl⟩ ⟨rfl, rfl, rfl, rfl, rfl⟩ rfl
    · exact present (exec_divrem64_nonzero h) ⟨rfl, rfl, rfl, rfl, rfl⟩ rfl rfl rfl
  | divrem256 =>
    by_cases h : s.sb = 0
    · exact none (exec_divrem256_zero h) (.inl rfl) ⟨rfl, rfl, rfl, rfl, rfl⟩ ⟨rfl, rfl, rfl, rfl, rfl⟩ rfl
    · exact present (exec_divrem256_nonzero h) ⟨rfl, rfl, rfl, rfl, rfl⟩ rfl rfl rfl
  | inv =>
    cases h : isOdd s.sa with
    | false => exact none (exec_inv_even h) (.inr rfl) ⟨rfl, rfl, rfl, rfl, rfl⟩ ⟨rfl, rfl, rfl, rfl, rfl⟩ rfl
    | true => exact present (exec_inv_odd h) ⟨rfl, rfl, rfl, rfl, rfl⟩ rfl rfl rfl
  | invmod =>
    by_cases h : s.sb = 0
    · exact none (exec_invmod_zero h) (.inr rfl) ⟨rfl, rfl, rfl, rfl, rfl⟩ ⟨rfl, rfl, rfl, rfl, rfl⟩ rfl
    · cases hf : euclidFixup s.sb (euclidRun s.scratch s.sa s.sb).regs with
      | none => exact none (exec_invmod_none h hf) (.inr rfl) ⟨rfl, rfl, rfl, rfl, rfl⟩ ⟨rfl, rfl, rfl, rfl, rfl⟩ rfl
      | some v => exact present (exec_invmod_some h hf) ⟨rfl, rfl, rfl, rfl, rfl⟩ rfl rfl rfl
  | div =>
    by_cases h : s.sb = 0
    · exact abort (exec_operator_zero (.inl rfl) h) ⟨rfl, rfl, rfl, rfl, rfl⟩ ⟨rfl, rfl, rfl, rfl, rfl⟩ rfl
    · exact present (exec_div_nonzero h) ⟨rfl, rfl, rfl, rfl, rfl⟩ rfl rfl rfl
  | rem =>
    by_cases h : s.sb = 0
    · exact abort (exec_operator_zero (.inr (.inl rfl)) h) ⟨rfl, rfl, rfl, rfl, rfl⟩ ⟨rfl, rfl, rfl, rfl, rfl⟩ rfl
    · exact present (exec_rem_nonzero h) ⟨rfl, rfl, rfl, rfl, rfl⟩ rfl rfl rfl
  | diva =>
    by_cases h : s.sb = 0
    · exact abort (exec_operator_zero (.inr (.inr (.inl rfl))) h) ⟨rfl, rfl, rfl, rfl, rfl⟩ ⟨rfl, rfl, rfl, rfl, rfl⟩ rfl
    · exact present (exec_diva_nonzero h) ⟨rfl, rfl, rfl, rfl, rfl⟩ rfl rfl rfl
  | rema =>
    by_cases h : s.sb = 0
    · exact abort (exec_operator_zero (.inr (.inr (.inr rfl))) h) ⟨rfl, rfl, rfl, rfl, rfl⟩ ⟨rfl, rfl, rfl, rfl, rfl⟩ rfl
    · exact present (exec_rema_nonzero h) ⟨rfl, rfl, rfl, rfl, rfl⟩ rfl rfl rfl

/-- R36, R39: the long-division unit's earlier contents do not reach the Euclid registers. -/
theorem euclidLoop_regs (k : Nat) : ∀ x y : EuclidRun, x.regs = y.regs → (euclidLoop k x).regs = (euclidLoop k y).regs := by
  induction k with
  | zero => exact fun _ _ h => h
  | succ k ih =>
    intro x y h
    simp only [euclidLoop, h]
    split_ifs
    · exact h
    · exact ih _ _ (by simp only [euclidStep, longDivide_spec, h])

theorem euclidRun_regs (o p : DivScratch) (a m : Word) : (euclidRun o a m).regs = (euclidRun p a m).regs :=
  euclidLoop_regs _ _ _ (by simp only [euclidLoad, longDivide_spec])

end Sys2Proof.Machine
end

