-- ==== Sys2Proof/Laws/HostPort.lean ====
section
/-! SUPPORT. What a host move and a turn can do, said once (spec 20_memory.md R55, R56, R60, R61; 10_state.md R40, R45). -/

namespace Sys2Proof.Machine

/-- R56, R72: what an accepted write can do: one limb of `A` or `B`, `D`, an issue, an illegal word, or nothing. -/
theorem writeSlot_cases (s : State) (addr : LimbAddr) (v : Limb) :
    (∃ x, writeSlot s addr v = { s with a := x }) ∨ (∃ x, writeSlot s addr v = { s with b := x }) ∨
    writeSlot s addr v = { s with d := v } ∨ (∃ i, decode v = .ok i ∧ writeSlot s addr v = issue i s) ∨
    writeSlot s addr v = illegalCommand s ∨ writeSlot s addr v = s := by
  unfold writeSlot writeCommand
  simp only
  split
  · exact .inl ⟨_, rfl⟩
  split
  · exact .inr (.inl ⟨_, rfl⟩)
  split
  · exact .inr (.inr (.inl rfl))
  split
  · split
    · rename_i i hd
      exact .inr (.inr (.inr (.inl ⟨i, hd, rfl⟩)))
    · exact .inr (.inr (.inr (.inr (.inl rfl))))
  · exact .inr (.inr (.inr (.inr (.inr rfl))))

/-- R55, R56, R60, R61, R78: what the host's turn can do. `h` and `l` are the host's own lists; the unit's part of the state changes
only by an accepted write in an idle state that has not aborted, or by a RESET line. -/
theorem hostTurn_cases (s : State) :
    (∃ h l, hostTurn s = { s with host := h, seen := l }) ∨
    (∃ addr v rest, s.status.busy = false ∧ s.status.abort = false ∧ s.host = .write addr v :: rest ∧
      hostTurn s = { writeSlot s addr v with host := rest }) ∨
    (∃ rest, s.host = .reset :: rest ∧ hostTurn s = { resetUnit s with host := rest }) := by
  unfold hostTurn
  split
  · exact .inl ⟨s.host, s.seen, rfl⟩
  · split
    · exact .inl ⟨s.host, s.seen, rfl⟩
    · exact .inl ⟨_, _, rfl⟩
  · rename_i addr v rest hh
    unfold memWrite
    split
    · exact .inl ⟨s.host, s.seen, rfl⟩
    · rename_i t ht
      split at ht
      · cases ht
      · rename_i hb
        split at ht
        · cases ht
          exact .inl ⟨_, s.seen, rfl⟩
        · rename_i ha
          cases ht
          exact .inr (.inl ⟨addr, v, rest, by simpa using hb, by simpa using ha, hh, rfl⟩)
  · exact .inl ⟨_, _, rfl⟩
  · rename_i rest hh
    exact .inr (.inr ⟨rest, hh, rfl⟩)

/-- R40, R45, R203, R220: what one step is. -/
theorem step_cases (s : State) :
    (nextTurn s = .host ∧ step s = .next (hostTurn (dropTurn s))) ∨
    (nextTurn s = .unit ∧ s.status.busy = true ∧ step s = exec s.flight.op (dropTurn s)) ∨
    (nextTurn s = .unit ∧ s.status.busy = false ∧ step s = .next (dropTurn s)) ∨
    (nextTurn s = .reset ∧ step s = .next (resetUnit (dropTurn s))) := by
  unfold step takeTurn unitTurn
  cases h : nextTurn s with
  | host => exact .inl ⟨rfl, rfl⟩
  | unit =>
    cases hb : s.status.busy with
    | true => exact .inr (.inl ⟨rfl, rfl, by simp [hb]⟩)
    | false => exact .inr (.inr (.inl ⟨rfl, rfl, by simp [hb]⟩))
  | reset => exact .inr (.inr (.inr ⟨rfl, rfl⟩))

/-! One equation per case of a step and of the host's turn, so that no later proof unfolds either. -/

theorem step_host {s : State} (h : nextTurn s = .host) : step s = .next (hostTurn (dropTurn s)) := by
  simp only [step, takeTurn, h]

theorem step_unit_busy {s : State} (h : nextTurn s = .unit) (hb : s.status.busy = true) : step s = exec s.flight.op (dropTurn s) := by
  simp only [step, takeTurn, h, unitTurn, dropTurn_status, hb, if_true, dropTurn_flight]

theorem step_unit_idle {s : State} (h : nextTurn s = .unit) (hb : s.status.busy = false) : step s = .next (dropTurn s) := by
  simp only [step, takeTurn, h, unitTurn, dropTurn_status, hb, Bool.false_eq_true, if_false]

theorem step_reset {s : State} (h : nextTurn s = .reset) : step s = .next (resetUnit (dropTurn s)) := by
  simp only [step, takeTurn, h]

/-- R45, log 5: the turn when none is scheduled. -/
theorem nextTurn_unscheduled {s : State} (h : s.turns = []) : nextTurn s = if s.status.busy then .unit else .host := by
  simp only [nextTurn, h]

/-- A run of `k + 1` steps is one step and a run of `k`. -/
theorem run_step (M : Host.Core) {k : Nat} {s t : M.State} (h : M.step s = .next t) : M.run (k + 1) s = M.run k t := by
  show (match M.step s with
    | .next u => M.run k u
    | .fault r => .fault r
    | .refused r => .refused r) = _
  rw [h]

theorem hostTurn_done {s : State} (h : s.host = []) : hostTurn s = s := by
  simp only [hostTurn, h]

theorem hostTurn_read_held {s : State} {addr : LimbAddr} {rest : List HostMove} (h : s.host = .read addr :: rest)
    (hb : s.status.busy = true) (ha : addr ≠ statusAddr) : hostTurn s = s := by
  simp [hostTurn, h, memRead, hb, ha]

theorem hostTurn_read {s : State} {addr : LimbAddr} {rest : List HostMove} (h : s.host = .read addr :: rest)
    (hp : s.status.busy = false ∨ addr = statusAddr) :
    hostTurn s = { s with host := rest, seen := readSlot s addr :: s.seen } := by
  have e : memRead s addr = some (readSlot s addr) := by rcases hp with hp | hp <;> simp [memRead, hp]
  simp only [hostTurn, h, e]

theorem hostTurn_write_held {s : State} {addr : LimbAddr} {v : Limb} {rest : List HostMove} (h : s.host = .write addr v :: rest)
    (hb : s.status.busy = true) : hostTurn s = s := by
  simp [hostTurn, h, memWrite, hb]

theorem hostTurn_write_discarded {s : State} {addr : LimbAddr} {v : Limb} {rest : List HostMove}
    (h : s.host = .write addr v :: rest) (hb : s.status.busy = false) (ha : s.status.abort = true) :
    hostTurn s = { s with host := rest } := by
  simp [hostTurn, h, memWrite, hb, ha]

theorem hostTurn_write {s : State} {addr : LimbAddr} {v : Limb} {rest : List HostMove} (h : s.host = .write addr v :: rest)
    (hb : s.status.busy = false) (ha : s.status.abort = false) : hostTurn s = { writeSlot s addr v with host := rest } := by
  simp [hostTurn, h, memWrite, hb, ha]

theorem hostTurn_wait {s : State} {rest : List HostMove} (h : s.host = .wait :: rest) :
    hostTurn s = { s with host := if s.status.busy then s.host else rest, seen := s.status.word :: s.seen } := by
  simp only [hostTurn, h]

theorem hostTurn_reset {s : State} {rest : List HostMove} (h : s.host = .reset :: rest) :
    hostTurn s = { resetUnit s with host := rest } := by
  simp only [hostTurn, h]

/-- R72: a write to CMD. -/
theorem writeSlot_cmd (s : State) (v : Limb) : writeSlot s cmdAddr v = writeCommand v s := rfl

theorem writeCommand_legal {s : State} {w : Limb} {i : Instr} (h : decode w = .ok i) : writeCommand w s = issue i s := by
  simp only [writeCommand, h]

theorem writeCommand_illegal {s : State} {w : Limb} {e : IllegalWord} (h : decode w = .error e) :
    writeCommand w s = illegalCommand s := by
  simp only [writeCommand, h]

end Sys2Proof.Machine
end

