-- ==== Sys2Proof/Tests/Slice0.lean ====
section
/-! SUPPORT. Tests. Every expected result is the spec's own: the vectors of 95_test_vectors.md (named by their number), the worked
examples and corner cases of the rules. The witnesses at the end meet the hypotheses of the statements in
Certificates/Slice0/Obligations.lean. -/

namespace Sys2Proof.Tests

open Sys2Proof Sys2Proof.Machine

-- The kernel evaluates these one after another; elaborating them all at once would start a thread for each.
set_option Elab.async false

/-! ## Helpers -/

/-- The state after power-on with the host's moves queued. -/
def idle (moves : List HostMove) : State := { State.reset with host := moves }

/-- A command in flight on these operands, with marked contents in `Q` and `R`. -/
def flying (i : Instr) (a b : Word) (d : Limb) : State :=
  { State.reset with
    a := a, b := b, d := d, q := 0x11, r := 0x22
    flight := { op := i, sa := a, sb := b, sd := d }
    status := { busy := true, valid := false, err := .none, abort := false } }

/-- The aborted state of a unit whose registers are all marked. -/
def aborted (moves : List HostMove) : State :=
  { State.reset with
    a := 0xA, b := 0xB, d := 0xD, q := 0x11, r := 0x22, host := moves
    status := { busy := false, valid := false, err := .divisionByZero, abort := true } }

/-- The outcome is a next state that passes `p`. -/
def nextIs (o : Host.Outcome State Fault Refusal) (p : State → Bool) : Bool :=
  match o with
  | .next t => p t
  | .fault _ => false
  | .refused _ => false

/-- Registers `A`, `Q`, `R` and the STATUS word after a step. -/
def leaves (s : State) (a q r : Word) (w : Limb) : Bool :=
  nextIs (step s) fun t => decide (t.a = a ∧ t.q = q ∧ t.r = r ∧ t.b = s.b ∧ t.d = s.d ∧ t.status.word = w)

/-! ## Well-formedness (R71, R72): an ill-formed word for each check -/

/-- R72, 95_test_vectors.md 9.4: opcode 3 with bit 4 set fails the check of the reserved bits. -/
theorem test_wf_reserved_bits : (Cmd64.ofWord 0x13).reservedClear = false ∧ (Cmd64.ofWord 0x13).wf = false := by decide

/-- R72, R75: opcodes 0 and 9 to 15 fail the check of the opcode. -/
theorem test_wf_opcode : (Cmd64.ofWord 0x0).opcodeDefined = false ∧ (Cmd64.ofWord 0x9).opcodeDefined = false ∧
    (Cmd64.ofWord 0xF).opcodeDefined = false ∧ (Cmd64.ofWord 0x0).wf = false ∧ (Cmd64.ofWord 0x9).wf = false := by decide

/-- R72: the two ends of the defined range pass both checks. -/
theorem test_wf_legal : (Cmd64.ofWord 0x1).wf = true ∧ (Cmd64.ofWord 0x8).wf = true := by decide

/-! ## Decoding: the words of R74, written bit by bit (bits 63:4 zero, bits 3:0 the opcode) -/

theorem test_decode_divrem64 : decode (0#60 ++ 0b0001#4) = .ok .divrem64 := by decide
theorem test_decode_divrem256 : decode (0#60 ++ 0b0010#4) = .ok .divrem256 := by decide
theorem test_decode_inv : decode (0#60 ++ 0b0011#4) = .ok .inv := by decide
theorem test_decode_invmod : decode (0#60 ++ 0b0100#4) = .ok .invmod := by decide
theorem test_decode_div : decode (0#60 ++ 0b0101#4) = .ok .div := by decide
theorem test_decode_rem : decode (0#60 ++ 0b0110#4) = .ok .rem := by decide
theorem test_decode_diva : decode (0#60 ++ 0b0111#4) = .ok .diva := by decide
theorem test_decode_rema : decode (0#60 ++ 0b1000#4) = .ok .rema := by decide

/-- R75, vectors 9.4, 9.5: each kind of illegal word, rejected by its name. -/
theorem test_decode_illegal : decode 0x0 = .error .undefinedOpcode ∧ decode 0x9 = .error .undefinedOpcode ∧
    decode 0xF = .error .undefinedOpcode ∧ decode 0x10 = .error .reservedBitsSet ∧ decode 0x13 = .error .reservedBitsSet ∧
    decode 0x8000000000000001 = .error .reservedBitsSet := by decide

/-! ## The primitive: 95_test_vectors.md section 3 -/

theorem test_div2by1 :
    div2by1 0x1 0x0 0x3 = (0x5555555555555555, 0x1) ∧
    div2by1 0xfffffffffffffffe 0xffffffffffffffff 0xffffffffffffffff = (0xffffffffffffffff, 0xfffffffffffffffe) ∧
    div2by1 0x0000000000001234 0x0000000000005678 0x000000009abcdef0 = (0x00001e1d8f1264eb, 0x0000000070a9f028) ∧
    div2by1 0x2 0x1 0x8000000000000005 = (0x3, 0x7ffffffffffffff2) := by decide +kernel

/-! ## The commands, one step each -/

/-- Vector 4.9: all carries non-zero. -/
theorem test_divrem64_generic : leaves
    (flying .divrem64 0x0123456789abcdeffedcba98765432100f1e2d3c4b5a69788796a5b4c3d2e1f0 0 0xdeadbeefcafebabe)
    0x0123456789abcdeffedcba98765432100f1e2d3c4b5a69788796a5b4c3d2e1f0
    0x0000000000000000014edb42704c8c4219ad9a8117f609eeb939dbcfb2bd1fb4 0x4917d5fb35d49258 0x02 = true := by decide +kernel

/-- Vector 4.16: a zero divisor in `D`; `B` is irrelevant; `Q` and `R` keep their contents. -/
theorem test_divrem64_zero : leaves
    (flying .divrem64 0xffffffffffffffffffffffffffffffffffffffffffffffffffffffffffffffff 7 0)
    0xffffffffffffffffffffffffffffffffffffffffffffffffffffffffffffffff 0x11 0x22 0x04 = true := by decide +kernel

/-- Vector 5.6: three limbs, add-back at one digit and the capped estimate at the other. -/
theorem test_divrem256_addback : leaves
    (flying .divrem256 0x80000000000000000000000000000002fffffffffffffffeffffffffffffff2e
      0x000000000000000080000000000000000000000000000002ffffffffffffffff 0)
    0x80000000000000000000000000000002fffffffffffffffeffffffffffffff2e 0xffffffffffffffff
    0x000000000000000080000000000000000000000000000002ffffffffffffff2d 0x02 = true := by decide +kernel

/-- Vector 5.30: a zero divisor in `B`; `D` is irrelevant. -/
theorem test_divrem256_zero : leaves
    (flying .divrem256 0xffffffffffffffffffffffffffffffffffffffffffffffffffffffffffffffff 0 7)
    0xffffffffffffffffffffffffffffffffffffffffffffffffffffffffffffffff 0x11 0x22 0x04 = true := by decide +kernel

/-- Vectors 5.2, 5.10, 5.11, 5.12 on the unit alone: two corrections, shifts 0, 56 and 63, widths 2, 3 and 4. -/
theorem test_long_division_unit :
    (longDivide DivScratch.reset 0x0123456789abcdeffedcba98765432100f1e2d3c4b5a69788796a5b4c3d2e1f0 0xabcdef012345678901).result =
      some (0x00000000000000000001b20366b89a9917bdc3067422a7d2bc46abce43f1deb7, 0x4a8d47e62d21101439) ∧
    (longDivide DivScratch.reset 0xdbb8d36ba2e5c7d7000000000000000080000000000000008000000000000001
      0x8000000000000000fffffffffffffffe).result =
      some (0x1b771a6d745cb8faa911cb2517468e0b2, 0x5dc69b5d172e3ea3a23964a2e8d1c165) ∧
    (longDivide DivScratch.reset 0xfffffffffffffffe8000000000000001b5b39023fd09e37c18af266c3555d6ae
      0x00000000000000010000000000000001ffffffffffffffff).result =
      some (0xfffffffffffffffc8000000000000009, 0xb5b39023fd09e36698af266c3555d6b7) ∧
    (longDivide DivScratch.reset 0xfffffffffffffffe0000000000000001ffffffffffffffff8000000000000001
      0x0000000000000001000000000000000100000000000000067fffffffffffffff).result =
      some (0xfffffffffffffffc, 0xffffffffffffffff800000000000001a7ffffffffffffffd) := by decide +kernel

/-- Vector 5.4: what stands in the hidden buffer, the divisor and the shift after the division. -/
theorem test_long_division_scratch :
    (longDivide DivScratch.reset 0x0123456789abcdeffedcba98765432100f1e2d3c4b5a69788796a5b4c3d2e1f0
      0x0000000000000005000000000000000000000000000000000000000000000007).scratch =
    { num := 0x003a4114b5225c631fdb97530eca864201e3c5a7896b4d2f10bfdbc479fc4b676000000000000000
      divisor := 0xa00000000000000000000000000000000000000000000000e000000000000000, shift := 61, width := 4 } := by
  decide +kernel

/-- Vector 6.7: the 64-bit steps see only 1; the result needs the two wide steps. -/
theorem test_inv_wide : leaves (flying .inv 0x10000000000000001 0 0) 0x10000000000000001
    0xffffffffffffffff0000000000000000ffffffffffffffff0000000000000001 0x22 0x02 = true := by decide +kernel

/-- Vector 6.13: even, only bit 255 set. -/
theorem test_inv_even : leaves
    (flying .inv 0x8000000000000000000000000000000000000000000000000000000000000000 0 0)
    0x8000000000000000000000000000000000000000000000000000000000000000 0x11 0x22 0x08 = true := by decide +kernel

/-- R152: the seed and the four 64-bit steps on 3. -/
theorem test_inv_engine : henselSeed 3 = 0xb ∧ newtonStep 3 (henselSeed 3) = 0xfffffffffffffeab ∧
    hensel64 3 = 0xaaaaaaaaaaaaaaab ∧ hensel128 3 = 0xaaaaaaaaaaaaaaaaaaaaaaaaaaaaaaab := by decide +kernel

/-- Vectors 7.2 (S2 of the source) and 7.4 (even count, value above the modulus). -/
theorem test_invmod_present :
    leaves (flying .invmod 0x07717a21e77894e8d82120c54277c73ee1062290709829411717f47973471ed5
      0x0800000000000011000000000000000000000000000000000000000000000001 0)
      0x07717a21e77894e8d82120c54277c73ee1062290709829411717f47973471ed5
      0x001752ce51d19c9797c88939cbce8317fac4d8e66130d944bda5eaad406f66d1 0x22 0x02 = true ∧
    leaves (flying .invmod 0xa 0x7 0) 0xa 0x5 0x22 0x02 = true ∧
    leaves (flying .invmod 0x5 0x1 0) 0x5 0x0 0x22 0x02 = true := by decide +kernel

/-- Vectors 7.20 and 7.23: gcd 3, and a zero modulus although `gcd(1, 0) = 1`. -/
theorem test_invmod_absent : leaves (flying .invmod 0x6 0x9 0) 0x6 0x11 0x22 0x08 = true ∧
    leaves (flying .invmod 0x1 0x0 0) 0x1 0x11 0x22 0x08 = true := by decide +kernel

/-- R167, vector 7.1: the pipeline's registers at the end of the worked example. -/
theorem test_invmod_registers : (euclidRun DivScratch.reset 271 383).regs =
    { r0 := 1, r1 := 0, t0 := 106, t1 := 383, kOdd := true } := by decide +kernel

/-- Vector 8.3, each of the four operators writes its one register. -/
theorem test_div : leaves (flying .div 0x0123456789abcdeffedcba98765432100f1e2d3c4b5a69788796a5b4c3d2e1f0 0xabcdef012345678901 0)
    0x0123456789abcdeffedcba98765432100f1e2d3c4b5a69788796a5b4c3d2e1f0
    0x00000000000000000001b20366b89a9917bdc3067422a7d2bc46abce43f1deb7 0x22 0x02 = true := by decide +kernel

theorem test_rem : leaves (flying .rem 0x0123456789abcdeffedcba98765432100f1e2d3c4b5a69788796a5b4c3d2e1f0 0xabcdef012345678901 0)
    0x0123456789abcdeffedcba98765432100f1e2d3c4b5a69788796a5b4c3d2e1f0 0x11 0x4a8d47e62d21101439 0x02 = true := by decide +kernel

theorem test_diva : leaves (flying .diva 0x0123456789abcdeffedcba98765432100f1e2d3c4b5a69788796a5b4c3d2e1f0 0xabcdef012345678901 0)
    0x00000000000000000001b20366b89a9917bdc3067422a7d2bc46abce43f1deb7 0x11 0x22 0x02 = true := by decide +kernel

theorem test_rema : leaves (flying .rema 0x0123456789abcdeffedcba98765432100f1e2d3c4b5a69788796a5b4c3d2e1f0 0xabcdef012345678901 0)
    0x4a8d47e62d21101439 0x11 0x22 0x02 = true := by decide +kernel

/-- R184: with `B = 0` each of the four leaves every data register as it was and sets STATUS to 0x14. -/
theorem test_operators_abort : ∀ i ∈ [Instr.div, .rem, .diva, .rema],
    leaves (flying i 0xffffffffffffffffffffffffffffffffffffffffffffffffffffffffffffffff 0 1)
      0xffffffffffffffffffffffffffffffffffffffffffffffffffffffffffffffff 0x11 0x22 0x14 = true := by decide +kernel

/-! ## The host port -/

/-- R51: a value of its own in every limb, read back through all 32 addresses in order. -/
theorem test_register_map :
    (List.range 32).map (fun k => readSlot
      { State.reset with
        a := ofLimbs 0x100 0x101 0x102 0x103, b := ofLimbs 0x104 0x105 0x106 0x107
        q := ofLimbs 0x108 0x109 0x10A 0x10B, r := ofLimbs 0x10C 0x10D 0x10E 0x10F, d := 0x110
        status := { busy := false, valid := true, err := .none, abort := false } } (BitVec.ofNat 5 k)) =
    [0x100, 0x101, 0x102, 0x103, 0x104, 0x105, 0x106, 0x107, 0x108, 0x109, 0x10A, 0x10B, 0x10C, 0x10D, 0x10E, 0x10F, 0x110, 0, 0x02] ++
      List.replicate 13 0 := by decide +kernel

/-- R77, R78: the transactions of the notation, and the limb order of LDA. -/
theorem test_notation :
    busTransaction (cmdLine .rema) = some { kind := .w, addr := 0x11, data := some 8 } ∧
    busTransaction (rd (.q 3)) = some { kind := .r, addr := 0x0B, data := none } ∧
    (lda 0x3000000000000000200000000000000010000000000000000).map busTransaction =
      [some { kind := .w, addr := 0, data := some 0 }, some { kind := .w, addr := 1, data := some 1 },
       some { kind := .w, addr := 2, data := some 2 }, some { kind := .w, addr := 3, data := some 3 }] := by decide +kernel

/-- Vectors 9.4, 9.7 and 9.15: an illegal word; the issue that clears `ERR`; both words discarded in the abort state. -/
theorem test_cmd_writes :
    nextIs (step (idle [.write 0x11 0x13])) (fun t => decide (t.status.word = 0x0c ∧ t.host = [])) = true ∧
    nextIs (step { idle [.write 0x11 0x3] with a := 3, status := { busy := false, valid := false, err := .illegalCommand, abort := false } })
      (fun t => decide (t.status.word = 0x01 ∧ t.flight = { op := .inv, sa := 3, sb := 0, sd := 0 })) = true ∧
    nextIs (step (aborted [.write 0x11 0x2])) (fun t => decide (t.status.word = 0x14 ∧ t.host = [])) = true ∧
    nextIs (step (aborted [.write 0x11 0x0])) (fun t => decide (t.status.word = 0x14 ∧ t.host = [])) = true := by decide +kernel

/-- Vectors 9.12 to 9.14: while busy a STATUS read answers 0x01 at once; a read of `Q` and a write of `A` are held. -/
theorem test_hold :
    nextIs (step { flying .inv 3 0 0 with host := [.read 0x12], turns := [.host] })
      (fun t => decide (t.seen = [0x01] ∧ t.host = [])) = true ∧
    nextIs (step { flying .inv 3 0 0 with host := [.read 0x08], turns := [.host] })
      (fun t => decide (t.seen = [] ∧ t.host = [.read 0x08])) = true ∧
    nextIs (step { flying .inv 3 0 0 with host := [.write 0x00 7], turns := [.host] })
      (fun t => decide (t.a = 3 ∧ t.host = [.write 0x00 7] ∧ t.status.word = 0x01)) = true := by decide +kernel

/-- Vectors 9.8 to 9.10, 9.19: discarded writes, and an operand write that leaves STATUS. -/
theorem test_discarded_writes :
    nextIs (step (idle [.write 0x08 5])) (fun t => decide (t = idle [])) = true ∧
    nextIs (step (idle [.write 0x12 0xffffffffffffffff])) (fun t => decide (t = idle [])) = true ∧
    nextIs (step (idle [.write 0x1f 0xff])) (fun t => decide (t = idle [])) = true ∧
    nextIs (step { idle [.write 0x03 5] with status := { busy := false, valid := true, err := .none, abort := false } })
      (fun t => decide (t.a = 0x5000000000000000000000000000000000000000000000000 ∧ t.status.word = 0x02)) = true := by decide +kernel

/-- Vector 9.17: `Reset` while busy and in the abort state, by the host's line and asynchronously; a held access stays pending. -/
theorem test_reset :
    nextIs (step (aborted [.reset])) (fun t => decide (t.status.word = 0 ∧ t.host = [])) = true ∧
    nextIs (step { flying .inv 3 0 0 with host := [.write 0x11 2], turns := [.reset] })
      (fun t => decide (t.status.word = 0 ∧ t.host = [.write 0x11 2])) = true := by decide +kernel

/-! ## Witnesses: states and operands that meet the hypotheses of the statements -/

theorem witness_CommandWriteVerdict_illegal (w : Limb) :
    nextTurn (idle [.write 0x11 w]) = .host ∧ (idle [.write 0x11 w]).host = .write 0x11 w :: [] ∧
    (idle [.write 0x11 w]).status.busy = false ∧ (idle [.write 0x11 w]).status.abort = false := ⟨rfl, rfl, rfl, rfl⟩

/-- Words that are illegal by each of the three clauses of R72. -/
theorem witness_CommandWriteVerdict_illegal_words :
    (16 : Limb).toNat / 2 ^ 4 ≠ 0 ∧ (0x8000000000000001 : Limb).toNat / 2 ^ 4 ≠ 0 ∧ (0 : Limb).toNat % 2 ^ 4 = 0 ∧
    9 ≤ (9 : Limb).toNat % 2 ^ 4 ∧ 9 ≤ (15 : Limb).toNat % 2 ^ 4 := by simp

theorem witness_CommandWriteVerdict_legal : ∀ x ∈ [((1 : Limb), Instr.divrem64), (8, .rema)],
    nextTurn (idle [.write 0x11 x.1]) = .host ∧ (idle [.write 0x11 x.1]).host = .write 0x11 x.1 :: [] ∧
    x.1.toNat / 2 ^ 4 = 0 ∧ x.1.toNat % 2 ^ 4 = x.2.opcode.toNat := by decide +kernel

theorem witness_StatusWordLayout : (5 : Nat) ≤ 5 ∧ (5 : Nat) ≤ 63 ∧ State.reset.status.busy = false := by decide

theorem witness_StatusInvariantKept : ∀ s ∈ [State.reset, flying .div 1 0 0, aborted []], s.StatusInv := by decide +kernel

theorem witness_SnapshotMatchesOperands : ∀ s ∈ [State.reset, flying .diva 7 2 1], s.SnapshotInv := by decide +kernel

theorem witness_HostReadOfEverySlot : ∀ addr : LimbAddr,
    nextTurn (idle [.read addr]) = .host ∧ (idle [.read addr]).host = .read addr :: [] ∧ (idle [.read addr]).status.busy = false := by
  decide +kernel

theorem witness_HostReadOfEverySlot_held :
    nextTurn { flying .inv 3 0 0 with host := [.read 0x13], turns := [.host] } = .host ∧ (flying .inv 3 0 0).status.busy = true ∧
    (0x13 : LimbAddr) ≠ 0x12 := by decide +kernel

theorem witness_HostWriteOfEverySlot : ∀ addr : LimbAddr,
    nextTurn (idle [.write addr 5]) = .host ∧ (idle [.write addr 5]).host = .write addr 5 :: [] ∧
    (idle [.write addr 5]).status.busy = false ∧ (idle [.write addr 5]).status.abort = false := by decide +kernel

theorem witness_HostWriteOfEverySlot_held_and_discarded :
    nextTurn { flying .inv 3 0 0 with host := [.write 0 5], turns := [.host] } = .host ∧ (flying .inv 3 0 0).status.busy = true ∧
    nextTurn (aborted [.write 0x11 1]) = .host ∧ (aborted [.write 0x11 1]).status.busy = false ∧
    (aborted [.write 0x11 1]).status.abort = true := by decide +kernel

theorem witness_ReservedSlots : ∀ addr ∈ [(0x13 : LimbAddr), 0x1F], 0x13 ≤ addr.toNat ∧
    State.reset.status.busy = false ∧ (aborted []).status.busy = false := by decide +kernel

theorem witness_AccessRights : State.reset.status.busy = false ∧ State.reset.status.abort = false ∧
    (∀ addr ∈ [(0x08 : LimbAddr), 0x0F, 0x12], (8 ≤ addr.toNat ∧ addr.toNat < 16) ∨ addr = 0x12) ∧
    (∀ addr ∈ [(0x00 : LimbAddr), 0x07, 0x10], addr.toNat < 8 ∨ addr = 0x10) := by decide +kernel

theorem witness_HeldAccessStaysPending : ∀ t ∈ [Turn.host, .unit, .reset],
    ({ flying .rem 9 4 0 with host := [.write 0x11 5], turns := [t] } : State).status.busy = true ∧
    nextTurn { flying .rem 9 4 0 with host := [.write 0x11 5], turns := [t] } = t := by decide +kernel

theorem witness_LoadAndReadBackWord :
    (idle (lda 7 ++ ldb 9 ++ rda ++ [])).status.busy = false ∧ (idle (lda 7 ++ ldb 9 ++ rda ++ [])).status.abort = false ∧
    (idle (lda 7 ++ ldb 9 ++ rda ++ [])).turns = [] ∧
    (idle (lda 7 ++ ldb 9 ++ rda ++ [])).host = lda 7 ++ ldb 9 ++ rda ++ [] := by decide +kernel

theorem witness_WaitPollsStatus : nextTurn (idle [.wait]) = .host ∧ (idle [.wait]).host = .wait :: [] ∧
    (idle [.wait]).status.busy = false ∧
    nextTurn { flying .inv 3 0 0 with host := [.wait], turns := [.host] } = .host ∧ (flying .inv 3 0 0).status.busy = true := by
  decide +kernel

theorem witness_UnitTurnRunsCommandInFlight : nextTurn (flying .inv 3 0 0) = .unit ∧ (flying .inv 3 0 0).status.busy = true ∧
    nextTurn { State.reset with turns := [.unit] } = .unit ∧ State.reset.status.busy = false := by decide +kernel

theorem witness_DecodedCommandRuns : (idle [.write 0x11 4]).status.busy = false ∧ (idle [.write 0x11 4]).status.abort = false ∧
    (idle [.write 0x11 4]).turns = [] ∧ (idle [.write 0x11 4]).host = .write 0x11 4 :: [] ∧ decode 4 = .ok .invmod := by
  decide +kernel

theorem witness_ReadAfterCommandSeesResult :
    (idle [.write 0x11 (encode .inv), .read 0x08]).status.busy = false ∧
    (idle [.write 0x11 (encode .inv), .read 0x08]).status.abort = false ∧
    (idle [.write 0x11 (encode .inv), .read 0x08]).turns = [] ∧
    (idle [.write 0x11 (encode .inv), .read 0x08]).host = .write 0x11 (encode .inv) :: .read 0x08 :: [] := by decide +kernel

theorem witness_EveryCommandCompletes :
    ({ flying .invmod 3 7 0 with host := [.read 0x12, .wait, .read 0x08], turns := [.host, .host, .unit] } : State).status.busy = true ∧
    Turn.reset ∉ [Turn.host, .host, .unit] ∧ HostMove.reset ∉ [HostMove.read 0x12, .wait, .read 0x08] := by decide +kernel

/-- Each clause: a command outside each write set, a completion with a result and one without. -/
theorem witness_RegisterWriteTable : writesQ .rem = false ∧ writesR .div = false ∧ writesA .inv = false ∧
    nextIs (exec .rema (flying .rema 9 4 1)) (fun t => t.status.valid) = true ∧
    nextIs (exec .inv (flying .inv 2 0 0)) (fun t => !t.status.valid) = true := by decide +kernel

theorem witness_ResultDependsOnSnapshotOnly :
    (flying .div 9 4 1).sa = ({ flying .div 9 4 1 with a := 0, status := Status.reset } : State).sa ∧
    (flying .div 9 4 1).sb = ({ flying .div 9 4 1 with a := 0, status := Status.reset } : State).sb ∧
    (flying .div 9 4 1).sd = ({ flying .div 9 4 1 with a := 0, status := Status.reset } : State).sd ∧
    nextIs (exec .div (flying .div 9 4 1)) (fun t => t.status.valid) = true := by decide +kernel

theorem witness_HiddenRegistersUnobservable :
    State.SameVisible (flying .div 9 4 1) { flying .div 9 4 1 with hensel := 5, euclid := { r0 := 1, r1 := 2, t0 := 3, t1 := 4, kOdd := true } } := by
  decide +kernel

theorem witness_IdleRecordIsDead : (idle [.write 0x11 2]).status.busy = false := by decide +kernel

theorem witness_PrimitiveDivideContract : (3 : Limb) ≠ 0 ∧ (2 : Limb) < 3 ∧ (0xffffffffffffffff : Limb) ≠ 0 ∧
    (0xfffffffffffffffe : Limb) < 0xffffffffffffffff := by decide +kernel

theorem witness_PrimitiveUsedInsideContract_divisors : 2 ≤ (siglimbs (ofLimbs 5 1 0 0)).val ∧
    2 ≤ (siglimbs (ofLimbs 0 0 0 0x8000000000000000)).val := by decide +kernel

theorem witness_PrimitiveUsedInsideContract : (1 : Limb) ≠ 0 ∧ 2 ^ 63 ≤ (0x8000000000000000 : Limb).toNat ∧
    (0x8000000000000000 : Limb) ≤ 0x8000000000000000 ∧ ¬ (0x8000000000000000 : Limb) ≤ 0x7fffffffffffffff := by decide +kernel

theorem witness_ShortDivisionResult : (flying .divrem64 5 0 0).sd = 0 ∧ (flying .divrem64 5 0 1).sd ≠ 0 := by decide +kernel

theorem witness_LongDivisionResult : (flying .divrem256 5 0 0).sb = 0 ∧ (flying .divrem256 5 1 0).sb ≠ 0 := by decide +kernel

/-- R112: a divisor for each width, one of them with zero limbs below its top limb. -/
theorem witness_EffectiveDivisorWidth :
    limb (ofLimbs 1 0 0 1) 3 ≠ 0 ∧ (limb (ofLimbs 0 0 1 0) 3 = 0 ∧ limb (ofLimbs 0 0 1 0) 2 ≠ 0) ∧
    (limb (ofLimbs 0 1 0 0) 3 = 0 ∧ limb (ofLimbs 0 1 0 0) 2 = 0 ∧ limb (ofLimbs 0 1 0 0) 1 ≠ 0) ∧
    (limb (ofLimbs 1 0 0 0) 3 = 0 ∧ limb (ofLimbs 1 0 0 0) 2 = 0 ∧ limb (ofLimbs 1 0 0 0) 1 = 0 ∧ limb (ofLimbs 1 0 0 0) 0 ≠ 0) := by
  decide +kernel

/-- R116: the two ends of the shift, in the branches with two and with four limbs. -/
theorem witness_NormalisedDivisorLimbs :
    2 ≤ (siglimbs (ofLimbs 5 1 0 0)).val ∧ shiftCount (ofLimbs 5 1 0 0) 2 = 63 ∧
    2 ≤ (siglimbs (ofLimbs 0 0 0 0x8000000000000000)).val ∧ shiftCount (ofLimbs 0 0 0 0x8000000000000000) 4 = 0 := by decide +kernel

theorem witness_NormalisedNumeratorLimbs : (0 : Nat) ≤ 63 ∧ (63 : Nat) ≤ 63 := by decide

/-- R130: the window of the worked example before its last digit, three limbs. -/
theorem witness_TrialDigitError_DigitStepDividesWindow :
    2 ≤ 3 ∧ 0 + 3 ≤ 4 ∧ (ofLimbs 0x4 0x0 0x8000000000000000 0).toNat < 2 ^ (64 * 3) ∧
    2 ^ 63 ≤ (limb (ofLimbs 0x4 0x0 0x8000000000000000 0) 2).toNat ∧
    limbs (stage (ofLimbs 0xc 0x0 0x0 0x2)) 0 4 < (ofLimbs 0x4 0x0 0x8000000000000000 0).toNat * 2 ^ 64 := by decide +kernel

/-- The same with two limbs, the least width, and with four, at the only place a window of five limbs has. -/
theorem witness_TrialDigitError_widths :
    2 ≤ 2 ∧ 2 + 2 ≤ 4 ∧ (ofLimbs 5 0x8000000000000000 0 0).toNat < 2 ^ (64 * 2) ∧
    2 ^ 63 ≤ (limb (ofLimbs 5 0x8000000000000000 0 0) 1).toNat ∧
    limbs (stage (ofLimbs 1 2 3 4)) 2 3 < (ofLimbs 5 0x8000000000000000 0 0).toNat * 2 ^ 64 ∧
    0 + 4 ≤ 4 ∧ (ofLimbs 0 0 0 0x8000000000000000).toNat < 2 ^ (64 * 4) ∧
    2 ^ 63 ≤ (limb (ofLimbs 0 0 0 0x8000000000000000) 3).toNat ∧
    limbs (stage (ofLimbs 1 2 3 4)) 0 5 < (ofLimbs 0 0 0 0x8000000000000000).toNat * 2 ^ 64 := by decide +kernel

theorem witness_ShortAndLongDivisionAgree : (flying .divrem64 100 7 7).sb.toNat = (flying .divrem64 100 7 7).sd.toNat ∧
    (flying .divrem64 100 0 0).sb.toNat = (flying .divrem64 100 0 0).sd.toNat := by decide +kernel

theorem witness_RingInverseResult : (flying .inv 0 0 0).sa.toNat % 2 = 0 ∧ (flying .inv 1 0 0).sa.toNat % 2 = 1 ∧
    (flying .inv 0xffffffffffffffffffffffffffffffffffffffffffffffffffffffffffffffff 0 0).sa.toNat % 2 = 1 := by decide +kernel

theorem witness_HenselPrecisionChain : (3 : Word).toNat % 2 = 1 := by decide +kernel

theorem witness_ModularInverseResult : (flying .invmod 1 0 0).sb = 0 ∧
    ((flying .invmod 6 9 0).sb ≠ 0 ∧ Nat.gcd (flying .invmod 6 9 0).sa.toNat (flying .invmod 6 9 0).sb.toNat ≠ 1) ∧
    ((flying .invmod 3 7 0).sb ≠ 0 ∧ Nat.gcd (flying .invmod 3 7 0).sa.toNat (flying .invmod 3 7 0).sb.toNat = 1) ∧
    ((flying .invmod 0 1 0).sb ≠ 0 ∧ Nat.gcd (flying .invmod 0 1 0).sa.toNat (flying .invmod 0 1 0).sb.toNat = 1) := by decide +kernel

theorem witness_EuclidCofactorsDoNotWrap : (7 : Word) ≠ 0 ∧ (euclidLoop 0 (euclidLoad DivScratch.reset 3 7)).regs.r1 ≠ 0 ∧
    (euclidLoop 1 (euclidLoad DivScratch.reset 3 7)).regs.r1 ≠ 0 := by decide +kernel

theorem witness_EuclidLoopStepBound : (1 : Word) ≠ 0 := by decide +kernel

theorem witness_PowerOfTwoModulus : 255 < 256 ∧
    (flying .invmod 3 0x8000000000000000000000000000000000000000000000000000000000000000 0).sb.toNat = 2 ^ 255 ∧
    (flying .invmod 3 1 0).sb.toNat = 2 ^ 0 ∧ (flying .invmod 3 1 0).sa.toNat % 2 = 1 := by decide +kernel

theorem witness_OperatorResults : ∀ i ∈ [Instr.div, .rem, .diva, .rema],
    ((flying i 100 7 0).StatusInv ∧ (flying i 100 7 0).status.busy = true ∧ (flying i 100 7 0).sb ≠ 0) ∧
    ((flying i 100 0 0).StatusInv ∧ (flying i 100 0 0).status.busy = true ∧ (flying i 100 0 0).sb = 0) := by decide +kernel

theorem witness_AbortTrapEntry : ∀ i ∈ [Instr.div, .rem, .diva, .rema], (flying i 100 0 0).sb = 0 := by decide +kernel

theorem witness_RemaIdempotent : (flying .rema 100 7 0).sb = (flying .rema 100 7 0).b ∧ (flying .rema 100 7 0).sb ≠ 0 := by
  decide +kernel

theorem witness_AbsentResults : (flying .divrem64 1 0 0).sd = 0 ∧ (flying .divrem256 1 0 0).sb = 0 ∧
    (flying .inv 2 0 0).sa.toNat % 2 = 0 ∧ (flying .invmod 1 0 0).sb = 0 ∧
    Nat.gcd (flying .invmod 6 9 0).sa.toNat (flying .invmod 6 9 0).sb.toNat ≠ 1 := by decide +kernel

theorem witness_AbortStateOnlyResetLeaves :
    (∀ moves ∈ [[], [.write 0x11 1], [.read 0x12], [.wait], [HostMove.reset]],
      (aborted moves).StatusInv ∧ (aborted moves).status.abort = true ∧ nextTurn (aborted moves) = .host) ∧
    (∀ t ∈ [Turn.unit, .reset], nextTurn { aborted [] with turns := [t] } = t) := by decide +kernel

theorem witness_AsynchronousReset : ∀ m ∈ [HostMove.write 0x11 (encode .inv), .read 0x08],
    nextTurn { flying .inv 3 0 0 with host := [m], turns := [.reset] } = .reset ∧
    nextIs (step { flying .inv 3 0 0 with host := [m], turns := [.reset] }) (fun t => decide (nextTurn t = .host)) = true ∧
    nextIs (step { flying .inv 3 0 0 with host := [m], turns := [.reset, .host] }) (fun t => decide (nextTurn t = .host)) = true := by
  decide +kernel

theorem witness_HostResetLine : nextTurn (aborted [.reset]) = .host ∧ (aborted [.reset]).host = .reset :: [] ∧
    nextTurn { flying .inv 3 0 0 with host := [.reset], turns := [.host] } = .host := by decide +kernel

theorem witness_AbortSetExactlyByOperators : (flying .div 1 0 0).StatusInv ∧ (flying .div 1 0 0).status.busy = true ∧
    (flying .inv 1 0 0).StatusInv ∧ (flying .inv 1 0 0).status.busy = true := by decide +kernel

/-- Three limbs: before the first iteration, between the two, and after the last. -/
theorem witness_DigitLoopInvariant :
    (3 : Nat) = (siglimbs (ofLimbs 7 0 1 0)).val ∧ (63 : Nat) = shiftCount (ofLimbs 7 0 1 0) 3 ∧
    DigitInv 3 (ofLimbs 7 0 1 0 <<< 63) (stage (ofLimbs 1 2 3 4) <<< 63) 2 (stage (ofLimbs 1 2 3 4) <<< 63) ∧
    DigitInv 3 (ofLimbs 7 0 1 0 <<< 63) (stage (ofLimbs 1 2 3 4) <<< 63) 1
      (digitStep 3 (ofLimbs 7 0 1 0 <<< 63) 1 (stage (ofLimbs 1 2 3 4) <<< 63)) ∧
    DigitInv 3 (ofLimbs 7 0 1 0 <<< 63) (stage (ofLimbs 1 2 3 4) <<< 63) 0
      (digitLoop 3 (ofLimbs 7 0 1 0 <<< 63) 1 (stage (ofLimbs 1 2 3 4) <<< 63)) := by decide +kernel

/-- The load, and both ends of the loop: gcd 1 (the worked example of R167) and gcd 3. -/
theorem witness_EuclidLoopInvariant : (383 : Word) ≠ 0 ∧ EuclidInv 271 383 (euclidLoad DivScratch.reset 271 383).regs ∧
    (euclidLoad DivScratch.reset 271 383).regs.r1 ≠ 0 ∧
    (EuclidInv 271 383 (euclidRun DivScratch.reset 271 383).regs ∧ (euclidRun DivScratch.reset 271 383).regs.r1 = 0) ∧
    (EuclidInv 6 9 (euclidRun DivScratch.reset 6 9).regs ∧ (euclidRun DivScratch.reset 6 9).regs.r1 = 0) ∧
    Nat.gcd (271 : Word).toNat (383 : Word).toNat = 1 ∧ Nat.gcd (6 : Word).toNat (9 : Word).toNat ≠ 1 :=
  ⟨by decide, euclidLoad_inv _ _ _ (by decide), by decide +kernel, euclidRun_spec _ _ _ (by decide), euclidRun_spec _ _ _ (by decide),
    by decide, by decide⟩

/-! ## Placing a command (log 6) -/

/-- From reset, the table's word 3 is in flight at once and its step is the completion of INV; word 0 is met as an illegal write. -/
theorem test_withFetchWord :
    nextIs (step ({ State.reset with a := 3 }.withFetchWord 64 3)) (fun t => decide (t.status.word = 0x02)) = true ∧
    nextIs (step (State.reset.withFetchWord 64 0)) (fun t => decide (t.status.word = 0x0c)) = true := by decide +kernel

end Sys2Proof.Tests
end

section
/-! SUPPORT. STATUS: its word bit by bit, its invariant under every change a rule makes to it, and what one step can do to it
(spec 10_state.md R27, R29 to R33, R44). -/

namespace Sys2Proof.Machine

/-! ### The word (R27, R31, R33) and its slot (R51, R58) -/

theorem Status.word_busy (x : Status) : x.word.getLsbD 0 = x.busy := by
  simp only [Status.word, BitVec.getLsbD_append]; simp

theorem Status.word_valid (x : Status) : x.word.getLsbD 1 = x.valid := by
  simp only [Status.word, BitVec.getLsbD_append]; simp

theorem Status.word_abort (x : Status) : x.word.getLsbD 4 = x.abort := by
  simp only [Status.word, BitVec.getLsbD_append]; simp

theorem Status.word_err (x : Status) : x.word.toNat / 4 % 4 = x.err.code.toNat := by
  obtain ⟨busy, valid, err, abort⟩ := x
  cases busy <;> cases valid <;> cases err <;> cases abort <;> rfl

theorem Status.word_high (x : Status) {k : Nat} (hk : 5 ≤ k) : x.word.getLsbD k = false := by
  have hw : x.word.toNat < 2 ^ 5 := by
    obtain ⟨busy, valid, err, abort⟩ := x
    cases busy <;> cases valid <;> cases err <;> cases abort <;> decide
  exact Nat.testBit_lt_two_pow (lt_of_lt_of_le hw (Nat.pow_le_pow_right (by decide) hk))

theorem memRead_status (s : State) : memRead s statusAddr = some s.status.word := by
  simp [memRead, readSlot, statusAddr]

theorem memWrite_status {s : State} (v : Limb) (hb : s.status.busy = false) : memWrite s statusAddr v = some s := by
  simp [memWrite, hb, writeSlot, statusAddr]

/-! ### The invariant R44 -/

/-- R44 (a) to (c) on STATUS alone. -/
abbrev Status.Inv (x : Status) : Prop :=
  (x.valid = true → x.err = .none) ∧
  (x.busy = true → x.valid = false ∧ x.err = .none ∧ x.abort = false) ∧
  (x.abort = true → x.busy = false ∧ x.valid = false ∧ x.err = .divisionByZero)

theorem statusInv_iff (s : State) : s.StatusInv ↔ s.status.Inv := Iff.rfl

/-- R44: the seven values are what the invariant leaves of the 32 settings of the four fields. -/
theorem Status.Inv.word_mem {x : Status} (h : x.Inv) : x.word ∈ legalStatusWords := by
  obtain ⟨busy, valid, err, abort⟩ := x
  revert h
  cases busy <;> cases valid <;> cases err <;> cases abort <;> decide

/-- R16, R40, R193, R195, R200, R220: what one step may make of STATUS: leave it, change it by an accepted CMD write in an idle state
that has not aborted, end the command in flight, or reset it. -/
inductive StatusStep (x : Status) : Status → Prop
  | same : StatusStep x x
  | issued (hb : x.busy = false) (ha : x.abort = false) : StatusStep x x.issued
  | illegal (hb : x.busy = false) (ha : x.abort = false) : StatusStep x x.illegal
  | present (hb : x.busy = true) : StatusStep x x.present
  | absent (e : ErrKind) (hb : x.busy = true) : StatusStep x (x.absent e)
  | aborted (hb : x.busy = true) : StatusStep x x.aborted
  | reset : StatusStep x .reset

/-- R44: none of the changes breaks the invariant. -/
theorem StatusStep.inv {x y : Status} (h : StatusStep x y) (hx : x.Inv) : y.Inv := by
  obtain ⟨hvalid, hbusy, habort⟩ := hx
  cases h with
  | same => exact ⟨hvalid, hbusy, habort⟩
  | issued hb ha => simp [Status.Inv, ha]
  | illegal hb ha => simp [Status.Inv, hb, ha]
  | present hb => simp [Status.Inv, hbusy hb]
  | absent e hb => simp [Status.Inv, hbusy hb]
  | aborted hb => simp [Status.Inv]
  | reset => simp [Status.Inv]

theorem hostTurn_statusStep (s : State) : StatusStep s.status (hostTurn s).status := by
  obtain ⟨h, l, e⟩ | ⟨addr, v, rest, hb, ha, -, e⟩ | ⟨rest, -, e⟩ := hostTurn_cases s <;> rw [e]
  · exact .same
  · obtain ⟨x, e⟩ | ⟨x, e⟩ | e | ⟨i, -, e⟩ | e | e := writeSlot_cases s addr v <;> rw [e]
    · exact .same
    · exact .same
    · exact .same
    · exact .issued hb ha
    · exact .illegal hb ha
    · exact .same
  · exact .reset

/-- R16, R193, R200: a completion changes STATUS in one of the three ways. -/
theorem exec_statusStep (i : Instr) {s : State} (hb : s.status.busy = true) :
    ∃ t, exec i s = .next t ∧ StatusStep s.status t.status := by
  obtain ⟨u, -, -, -, hu, he | ⟨e, -, -, he⟩ | ⟨-, he⟩⟩ := exec_endsIn i s <;>
    refine ⟨_, he, ?_⟩ <;> rw [← hu] at hb ⊢
  · exact .present hb
  · exact .absent e hb
  · exact .aborted hb

theorem step_statusStep (s : State) : ∃ t, step s = .next t ∧ StatusStep s.status t.status := by
  obtain ⟨-, h⟩ | ⟨-, hb, h⟩ | ⟨-, -, h⟩ | ⟨-, h⟩ := step_cases s <;> rw [h]
  · exact ⟨_, rfl, hostTurn_statusStep (dropTurn s)⟩
  · exact exec_statusStep s.flight.op (s := dropTurn s) hb
  · exact ⟨_, rfl, .same⟩
  · exact ⟨_, rfl, .reset⟩

end Sys2Proof.Machine
end

section
/-! SUPPORT. How each command ends, as a function of its snapshot alone (spec 10_state.md R34, R39): the hidden registers, STATUS and
the operand registers as they stand have no part in it. -/

namespace Sys2Proof.Machine

/-- R16, R193, R200: the end of a command as the host sees it. -/
inductive Ending where
  /-- a result: what is written to `Q`, `R` and `A`, none for a register the command does not write -/
  | present (q r a : Option Word)
  /-- no result, with the error kind -/
  | absent (e : ErrKind)
  /-- the abort trap -/
  | abort

/-- R111: the quotient of the snapshot. -/
def quotient (sa sb : Word) : Word := BitVec.ofNat 256 (sa.toNat / sb.toNat)

/-- R111: the remainder of the snapshot. -/
def remainder (sa sb : Word) : Word := BitVec.ofNat 256 (sa.toNat % sb.toNat)

/-- R156: what INVMOD computes; by `euclidRun_regs` the scratch it starts from does not matter. -/
def modularInverse (sa sb : Word) : Option Word := euclidFixup sb (euclidRun DivScratch.reset sa sb).regs

/-- R101, R111, R141, R156, R176 to R179: how the command ends on the snapshot `sa`, `sb`, `sd`. -/
def ending (i : Instr) (sa sb : Word) (sd : Limb) : Ending :=
  match i with
  | .divrem64 =>
    if sd = 0 then .absent .divisionByZero
    else .present (some (limbChain 0 sa sd).quot) (some (ofLimb (limbChain 0 sa sd).rem)) none
  | .divrem256 =>
    if sb = 0 then .absent .divisionByZero else .present (some (quotient sa sb)) (some (remainder sa sb)) none
  | .inv => if isOdd sa then .present (some (henselInverse sa)) none none else .absent .noInverseExists
  | .invmod =>
    if sb = 0 then .absent .noInverseExists
    else (modularInverse sa sb).elim (.absent .noInverseExists) fun x => .present (some x) none none
  | .div => if sb = 0 then .abort else .present (some (quotient sa sb)) none none
  | .rem => if sb = 0 then .abort else .present none (some (remainder sa sb)) none
  | .diva => if sb = 0 then .abort else .present none none (some (quotient sa sb))
  | .rema => if sb = 0 then .abort else .present none none (some (remainder sa sb))

/-- What an ending writes: STATUS, and the registers that have a result. -/
def Ending.apply (x : Ending) (s : State) : State :=
  match x with
  | .present q r a => resultPresent { s with q := q.getD s.q, r := r.getD s.r, a := a.getD s.a }
  | .absent e => resultNone e s
  | .abort => raiseAbort s

/-- R36 to R38: `s` with other contents of the hidden registers. -/
def State.withHidden (s : State) (w : DivScratch) (h : Word) (e : Euclid) : State :=
  { s with scratch := w, hensel := h, euclid := e }

theorem sameVisible_iff (s u : State) : State.SameVisible s u ↔ ∃ w h e, u = s.withHidden w h e := by
  constructor
  · exact fun hv => ⟨u.scratch, u.hensel, u.euclid, by rw [State.SameVisible] at hv; rw [← hv]; rfl⟩
  · rintro ⟨w, h, e, rfl⟩
    rfl

theorem Ending.apply_withHidden (x : Ending) (s : State) (w : DivScratch) (h : Word) (e : Euclid) :
    x.apply (s.withHidden w h e) = (x.apply s).withHidden w h e := by
  cases x <;> rfl

/-- R34, R39: a completion is its ending applied, up to what it leaves in the hidden registers. -/
theorem exec_eq_ending (i : Instr) (s : State) :
    ∃ w h e, exec i s = .next (((ending i s.sa s.sb s.sd).apply s).withHidden w h e) := by
  have ends : ∀ {t : State} {x : Ending}, exec i s = .next t → ending i s.sa s.sb s.sd = x → State.SameVisible (x.apply s) t →
      ∃ w h e, exec i s = .next (((ending i s.sa s.sb s.sd).apply s).withHidden w h e) := by
    rintro t x ht rfl hv
    obtain ⟨w, h, e, rfl⟩ := (sameVisible_iff _ _).mp hv
    exact ⟨w, h, e, ht⟩
  cases i with
  | divrem64 =>
    by_cases h : s.sd = 0
    · exact ends (exec_divrem64_zero h) (if_pos h) rfl
    · exact ends (exec_divrem64_nonzero h) (if_neg h) rfl
  | divrem256 =>
    by_cases h : s.sb = 0
    · exact ends (exec_divrem256_zero h) (if_pos h) rfl
    · exact ends (exec_divrem256_nonzero h) (if_neg h) rfl
  | inv =>
    cases h : isOdd s.sa with
    | false => exact ends (exec_inv_even h) (if_neg (by simp [h])) rfl
    | true => exact ends (exec_inv_odd h) (if_pos h) rfl
  | invmod =>
    by_cases h : s.sb = 0
    · exact ends (exec_invmod_zero h) (if_pos h) rfl
    · have hm : euclidFixup s.sb (euclidRun s.scratch s.sa s.sb).regs = modularInverse s.sa s.sb := by
        rw [modularInverse, euclidRun_regs]
      cases hf : modularInverse s.sa s.sb with
      | none => exact ends (exec_invmod_none h (hm.trans hf)) ((if_neg h).trans (by rw [hf, Option.elim])) rfl
      | some x => exact ends (exec_invmod_some h (hm.trans hf)) ((if_neg h).trans (by rw [hf, Option.elim])) rfl
  | div =>
    by_cases h : s.sb = 0
    · exact ends (exec_operator_zero (.inl rfl) h) (if_pos h) rfl
    · exact ends (exec_div_nonzero h) (if_neg h) rfl
  | rem =>
    by_cases h : s.sb = 0
    · exact ends (exec_operator_zero (.inr (.inl rfl)) h) (if_pos h) rfl
    · exact ends (exec_rem_nonzero h) (if_neg h) rfl
  | diva =>
    by_cases h : s.sb = 0
    · exact ends (exec_operator_zero (.inr (.inr (.inl rfl))) h) (if_pos h) rfl
    · exact ends (exec_diva_nonzero h) (if_neg h) rfl
  | rema =>
    by_cases h : s.sb = 0
    · exact ends (exec_operator_zero (.inr (.inr (.inr rfl))) h) (if_pos h) rfl
    · exact ends (exec_rema_nonzero h) (if_neg h) rfl

/-- R21, R24, R25: an ending writes the registers the table gives the command, and no other. -/
theorem ending_present_isSome {i : Instr} {sa sb : Word} {sd : Limb} {q r a : Option Word}
    (h : ending i sa sb sd = .present q r a) :
    q.isSome = writesQ i ∧ r.isSome = writesR i ∧ a.isSome = writesA i := by
  cases i with
  | inv =>
    simp only [ending] at h
    split at h
    · cases h; exact ⟨rfl, rfl, rfl⟩
    · cases h
  | invmod =>
    simp only [ending] at h
    split at h
    · cases h
    · cases hm : modularInverse sa sb <;> rw [hm] at h <;> cases h
      exact ⟨rfl, rfl, rfl⟩
  | divrem64 | divrem256 | div | rem | diva | rema =>
    simp only [ending] at h
    split at h
    · cases h
    · cases h; exact ⟨rfl, rfl, rfl⟩

/-- R32: only an operator command with a zero divisor ends in the abort. -/
theorem ending_eq_abort_iff (i : Instr) (sa sb : Word) (sd : Limb) :
    ending i sa sb sd = .abort ↔ (i = .div ∨ i = .rem ∨ i = .diva ∨ i = .rema) ∧ sb = 0 := by
  cases i with
  | div | rem | diva | rema => simp only [ending]; split_ifs with h <;> simpa using h
  | divrem64 | divrem256 | inv => simp only [ending]; split <;> simp
  | invmod =>
    simp only [ending]
    split
    · simp
    · cases modularInverse sa sb <;> simp

/-- R32: where ABORT was 0, only the trap leaves it at 1. -/
theorem Ending.apply_status_abort {x : Ending} {s : State} (ha : s.status.abort = false) :
    (x.apply s).status.abort = true ↔ x = .abort := by
  cases x <;> simp [Ending.apply, ha]

end Sys2Proof.Machine
end

section
/-! SUPPORT. What the hidden registers can reach: every host move, write and completion commutes with a change of them (spec 10_state.md
R36 to R39). -/

namespace Sys2Proof.Machine

theorem nextTurn_withHidden (s : State) (w : DivScratch) (h : Word) (e : Euclid) :
    nextTurn (s.withHidden w h e) = nextTurn s := rfl

/-- R36 to R39: the register space shows no hidden register, and no write depends on one. -/
theorem writeSlot_withHidden (s : State) (addr : LimbAddr) (v : Limb) (w : DivScratch) (h : Word) (e : Euclid) :
    writeSlot (s.withHidden w h e) addr v = (writeSlot s addr v).withHidden w h e := by
  unfold writeSlot writeCommand
  simp only
  split_ifs
  iterate 3 rfl
  · cases decode v <;> rfl
  · rfl

theorem memRead_withHidden (s : State) (addr : LimbAddr) (w : DivScratch) (h : Word) (e : Euclid) :
    memRead (s.withHidden w h e) addr = memRead s addr := rfl

theorem memWrite_withHidden (s : State) (addr : LimbAddr) (v : Limb) (w : DivScratch) (h : Word) (e : Euclid) :
    memWrite (s.withHidden w h e) addr v = (memWrite s addr v).map (·.withHidden w h e) := by
  unfold memWrite
  rw [writeSlot_withHidden]
  cases hb : s.status.busy <;> cases ha : s.status.abort <;> simp [State.withHidden, hb, ha]

/-- R39: the host's turn reads no hidden register; a RESET line draws them anew. -/
theorem hostTurn_sameVisible (s : State) (w : DivScratch) (h : Word) (e : Euclid) :
    State.SameVisible (hostTurn s) (hostTurn (s.withHidden w h e)) := by
  have hhost : (s.withHidden w h e).host = s.host := rfl
  unfold hostTurn
  rw [hhost]
  cases s.host with
  | nil => rfl
  | cons m rest =>
    cases m with
    | read addr =>
      simp only [memRead_withHidden]
      cases memRead s addr <;> rfl
    | write addr v =>
      simp only [memWrite_withHidden]
      cases memWrite s addr v <;> rfl
    | wait => rfl
    | reset => rfl

/-- R34, R39: a completion shows nothing of what the hidden registers held. -/
theorem exec_sameVisible (i : Instr) (s : State) (w : DivScratch) (h : Word) (e : Euclid) :
    ∃ t v, exec i s = .next t ∧ exec i (s.withHidden w h e) = .next v ∧ State.SameVisible t v := by
  obtain ⟨w₁, h₁, e₁, hs⟩ := exec_eq_ending i s
  obtain ⟨w₂, h₂, e₂, hu⟩ := exec_eq_ending i (s.withHidden w h e)
  rw [Ending.apply_withHidden] at hu
  exact ⟨_, _, hs, hu, rfl⟩

end Sys2Proof.Machine
end

section
/-! SUPPORT. What the in-flight record can reach: its snapshot while a command is in flight (spec 10_state.md R40), nothing while the
unit is idle (R35). -/

namespace Sys2Proof.Machine

/-- R40, R60: a host move that leaves the unit busy issued just now, or was held. -/
theorem hostTurn_snapshotInv {s : State} (h : s.SnapshotInv) : (hostTurn s).SnapshotInv := by
  obtain ⟨_, _, e⟩ | ⟨addr, v, rest, hb, -, -, e⟩ | ⟨rest, -, e⟩ := hostTurn_cases s <;> rw [e]
  · exact h
  · have idle : ∀ {t : State}, t.status.busy = false → State.SnapshotInv { t with host := rest } :=
      fun ht hbusy => absurd hbusy (by simp [ht])
    obtain ⟨x, e⟩ | ⟨x, e⟩ | e | ⟨i, -, e⟩ | e | e := writeSlot_cases s addr v <;> rw [e]
    · exact idle hb
    · exact idle hb
    · exact idle hb
    · exact fun _ => ⟨rfl, rfl, rfl⟩
    · exact idle hb
    · exact idle hb
  · exact fun hbusy => absurd hbusy (by simp)

/-- R40: a completion ends with `BUSY = 0`. -/
theorem exec_idle (i : Instr) (s : State) : ∃ t, exec i s = .next t ∧ t.status.busy = false := by
  obtain ⟨u, -, -, -, -, he | ⟨e, -, -, he⟩ | ⟨-, he⟩⟩ := exec_endsIn i s <;> exact ⟨_, he, rfl⟩

/-- R35: `s` with another in-flight record. -/
def State.withFlight (s : State) (f : InFlight) : State := { s with flight := f }

/-- R35: an accepted write carries the record along unread, or issues and so replaces it. -/
theorem writeSlot_withFlight (s : State) (f : InFlight) (addr : LimbAddr) (v : Limb) :
    writeSlot (s.withFlight f) addr v = writeSlot s addr v ∨
    ((writeSlot s addr v).status.busy = s.status.busy ∧
      writeSlot (s.withFlight f) addr v = (writeSlot s addr v).withFlight f) := by
  unfold writeSlot writeCommand
  simp only
  split_ifs
  iterate 3 exact .inr ⟨rfl, rfl⟩
  · cases decode v with
    | ok i => exact .inl rfl
    | error _ => exact .inr ⟨rfl, rfl⟩
  · exact .inr ⟨rfl, rfl⟩

/-- R35, R40: in an idle unit the host's turn does no more with the record than an accepted write. -/
theorem hostTurn_withFlight {s : State} (f : InFlight) (hb : s.status.busy = false) :
    hostTurn (s.withFlight f) = hostTurn s ∨
    ((hostTurn s).status.busy = false ∧ hostTurn (s.withFlight f) = (hostTurn s).withFlight f) := by
  have hb' : (s.withFlight f).status.busy = false := hb
  cases hh : s.host with
  | nil =>
    rw [hostTurn_done hh, hostTurn_done (s := s.withFlight f) hh]
    exact .inr ⟨hb, rfl⟩
  | cons m rest =>
    have hh' : (s.withFlight f).host = m :: rest := hh
    cases m with
    | read addr =>
      rw [hostTurn_read hh (.inl hb), hostTurn_read hh' (.inl hb)]
      exact .inr ⟨hb, rfl⟩
    | write addr v =>
      cases ha : s.status.abort with
      | true =>
        rw [hostTurn_write_discarded hh hb ha, hostTurn_write_discarded hh' hb ha]
        exact .inr ⟨hb, rfl⟩
      | false =>
        rw [hostTurn_write hh hb ha, hostTurn_write hh' hb ha]
        obtain e | ⟨hbusy, e⟩ := writeSlot_withFlight s f addr v <;> rw [e]
        · exact .inl rfl
        · exact .inr ⟨hbusy.trans hb, rfl⟩
    | wait =>
      rw [hostTurn_wait hh, hostTurn_wait hh']
      exact .inr ⟨hb, rfl⟩
    | reset =>
      rw [hostTurn_reset hh, hostTurn_reset hh']
      exact .inr ⟨rfl, rfl⟩

end Sys2Proof.Machine
end

section
/-! SUPPORT. The two steps of a command when no turn is scheduled: issue, then completion (spec 10_state.md R40, R45). -/

namespace Sys2Proof.Machine

theorem core_run_one (s : State) : core.run 1 s = step s := by
  obtain ⟨t, ht, -⟩ := step_statusStep s
  rw [run_step core ht, ht]
  rfl

theorem dropTurn_unscheduled {s : State} (h : s.turns = []) : dropTurn s = s := by
  rw [dropTurn, h, List.tail_nil, ← h]

/-- R40: with no turn scheduled, a command in flight completes at once. -/
theorem step_busy_unscheduled {s : State} (ht : s.turns = []) (hb : s.status.busy = true) :
    step s = exec s.flight.op s := by
  rw [step_unit_busy (by rw [nextTurn_unscheduled ht, if_pos hb]) hb, dropTurn_unscheduled ht]

/-- R40, R72: with no turn scheduled, an idle unit that has not aborted issues the legal word written to CMD. -/
theorem step_issue_unscheduled {s : State} {w : Limb} {i : Instr} {rest : List HostMove} (ht : s.turns = [])
    (hb : s.status.busy = false) (ha : s.status.abort = false) (hh : s.host = .write cmdAddr w :: rest)
    (hd : decode w = .ok i) : step s = .next { issue i s with host := rest } := by
  have hturn : nextTurn s = .host := by simp [nextTurn_unscheduled ht, hb]
  rw [step_host hturn, dropTurn_unscheduled ht, hostTurn_write hh hb ha, writeSlot_cmd, writeCommand_legal hd]

end Sys2Proof.Machine
end

section
/-! The statements of 10_state.md, settled. -/

namespace Sys2Proof.Machine

/-- Settles O6: the invariant is kept by each of the ways in which a step may change STATUS (`StatusStep`), and it leaves seven words. -/
theorem statusInvariantKept : Obligations.StatusInvariantKept := by
  intro s hs
  obtain ⟨t, ht, hst⟩ := step_statusStep s
  have hinv := hst.inv ((statusInv_iff s).mp hs)
  exact ⟨t, ht, (statusInv_iff t).mpr hinv, hinv.word_mem⟩

/-- Settles O7: no turn leaves a busy unit with changed operands; an issue takes the snapshot, and every other change ends idle. -/
theorem snapshotMatchesOperands : Obligations.SnapshotMatchesOperands := by
  intro s hs
  obtain ⟨-, h⟩ | ⟨-, -, h⟩ | ⟨-, -, h⟩ | ⟨-, h⟩ := step_cases s <;> rw [h]
  · exact ⟨_, rfl, hostTurn_snapshotInv (s := dropTurn s) hs⟩
  · obtain ⟨t, ht, hb⟩ := exec_idle s.flight.op (dropTurn s)
    exact ⟨t, ht, fun hbusy => absurd hbusy (by simp [hb])⟩
  · exact ⟨_, rfl, hs⟩
  · exact ⟨_, rfl, fun hbusy => absurd hbusy (by simp)⟩

/-- Settles O22: the host's turn commutes with a change of the hidden registers, and a completion is its ending, which reads none. -/
theorem hiddenRegistersUnobservable : Obligations.HiddenRegistersUnobservable := by
  intro s u hv
  obtain ⟨w, h, e, rfl⟩ := (sameVisible_iff s u).mp hv
  have hdrop : dropTurn (s.withHidden w h e) = (dropTurn s).withHidden w h e := rfl
  have hturn := nextTurn_withHidden s w h e
  cases ht : nextTurn s with
  | host =>
    refine ⟨_, _, step_host ht, step_host (hturn.trans ht), ?_⟩
    rw [hdrop]
    exact hostTurn_sameVisible (dropTurn s) w h e
  | unit =>
    cases hb : s.status.busy with
    | true =>
      rw [step_unit_busy ht hb, step_unit_busy (hturn.trans ht) hb, hdrop]
      exact exec_sameVisible s.flight.op (dropTurn s) w h e
    | false => exact ⟨_, _, step_unit_idle ht hb, step_unit_idle (hturn.trans ht) hb, rfl⟩
  | reset => exact ⟨_, _, step_reset ht, step_reset (hturn.trans ht), rfl⟩

/-- Settles O20: the ending of a command writes the registers of the table, and none without a result. -/
theorem registerWriteTable : Obligations.RegisterWriteTable := by
  intro i s
  obtain ⟨w, h, e, hs⟩ := exec_eq_ending i s
  refine ⟨_, hs, ?_⟩
  cases hx : ending i s.sa s.sb s.sd with
  | present q r a =>
    obtain ⟨hq, hr, ha⟩ := ending_present_isSome hx
    rw [← hq, ← hr, ← ha]
    refine ⟨rfl, ⟨rfl, rfl, rfl, rfl, rfl⟩, rfl, rfl, ?_, ?_, ?_, nofun, fun _ => rfl⟩ <;>
      intro hn <;> rw [Option.isSome_eq_false_iff, Option.isNone_iff_eq_none] at hn <;> rw [hn] <;> rfl
  | absent k | abort =>
    exact ⟨rfl, ⟨rfl, rfl, rfl, rfl, rfl⟩, rfl, rfl, fun _ => rfl, fun _ => rfl, fun _ => rfl,
      fun _ => ⟨rfl, rfl, rfl, rfl, rfl⟩, nofun⟩

/-- Settles O21: both completions apply the one ending that the snapshot gives. -/
theorem resultDependsOnSnapshotOnly : Obligations.ResultDependsOnSnapshotOnly := by
  intro i s u ha hb hd
  obtain ⟨w₁, h₁, e₁, hs⟩ := exec_eq_ending i s
  obtain ⟨w₂, h₂, e₂, hu⟩ := exec_eq_ending i u
  rw [← ha, ← hb, ← hd] at hu
  refine ⟨_, _, hs, hu, ?_⟩
  cases hx : ending i s.sa s.sb s.sd with
  | present q r a =>
    obtain ⟨hq, hr, ha⟩ := ending_present_isSome hx
    rw [← hq, ← hr, ← ha]
    refine ⟨rfl, rfl, fun _ => ⟨?_, ?_, ?_⟩⟩ <;>
      intro hn <;> obtain ⟨x, rfl⟩ := Option.isSome_iff_exists.mp hn <;> rfl
  | absent k | abort => exact ⟨rfl, rfl, nofun⟩

/-- Settles O23: an idle unit's turns carry the record along unread, and an issue writes it anew. -/
theorem idleRecordIsDead : Obligations.IdleRecordIsDead := by
  intro s f hb
  change ∃ t v, step s = .next t ∧ step (s.withFlight f) = .next v ∧
    (v = t ∨ (t.status.busy = false ∧ v = t.withFlight f))
  have hdrop : dropTurn (s.withFlight f) = (dropTurn s).withFlight f := rfl
  have hturn : nextTurn (s.withFlight f) = nextTurn s := rfl
  cases ht : nextTurn s with
  | host =>
    refine ⟨_, _, step_host ht, step_host (hturn.trans ht), ?_⟩
    rw [hdrop]
    exact hostTurn_withFlight f hb
  | unit => exact ⟨_, _, step_unit_idle ht hb, step_unit_idle (hturn.trans ht) hb, .inr ⟨hb, rfl⟩⟩
  | reset => exact ⟨_, _, step_reset ht, step_reset (hturn.trans ht), .inr ⟨rfl, rfl⟩⟩

/-- Settles O52: a busy unit has ABORT = 0, so only an ending in the trap leaves it at 1. -/
theorem abortSetExactlyByOperators : Obligations.AbortSetExactlyByOperators := by
  intro i s ⟨_, hbusy, _⟩ hb
  obtain ⟨-, -, ha⟩ := hbusy hb
  obtain ⟨w, h, e, hs⟩ := exec_eq_ending i s
  exact ⟨_, hs, (Ending.apply_status_abort ha).trans (ending_eq_abort_iff i s.sa s.sb s.sd)⟩

/-- Settles O4, from the lemmas on the single bits of the word. -/
theorem statusWordLayout : Obligations.StatusWordLayout := by
  intro s
  refine ⟨s.status.word, memRead_status s, s.status.word_busy, s.status.word_valid, ?_, s.status.word_abort,
    fun k hk => s.status.word_high hk, fun v hb => memWrite_status v hb⟩
  rw [s.status.word_err]
  cases s.status.err <;> rfl

/-- Settles O5: STATUS is that of the reset, and the unit is idle. -/
theorem invariantsHoldAtReset : Obligations.InvariantsHoldAtReset := by
  intro moves ts
  exact ⟨StatusStep.inv (x := .reset) .reset (by decide), nofun⟩

/-- Settles O16, by the two equations of the unit's turn. -/
theorem unitTurnRunsCommandInFlight : Obligations.UnitTurnRunsCommandInFlight :=
  fun _ ht => ⟨step_unit_busy ht, step_unit_idle ht⟩

/-- Settles O17: the first step issues, the second completes. -/
theorem decodedCommandRuns : Obligations.DecodedCommandRuns := by
  intro s w i rest hb ha ht hh hd
  rw [run_step core (step_issue_unscheduled ht hb ha hh hd), core_run_one]
  have hstatus : s.status.issued = { busy := true, valid := false, err := .none, abort := false } := by
    rw [Status.issued, ha]
  rw [← hstatus]
  exact step_busy_unscheduled (s := { issue i s with host := rest }) ht rfl

/-- Settles O51, by the reset values of STATUS. -/
theorem powerOnStatus : Obligations.PowerOnStatus :=
  ⟨rfl, memRead_status State.reset⟩

end Sys2Proof.Machine
end

section
/-! SUPPORT. The register map slot by slot (spec 20_memory.md R51, R55, R56): what each slot reads as, what an accepted write to it
does, and how a read sees an earlier write. -/

namespace Sys2Proof.Machine

/-! ### What a slot reads as (R55, R57, R58) -/

theorem readSlot_a (s : State) {addr : LimbAddr} {i : Fin 4} (h : addr.toNat = i) : readSlot s addr = limb s.a i := by
  rw [readSlot, h, if_pos i.isLt]

theorem readSlot_b (s : State) {addr : LimbAddr} {i : Fin 4} (h : addr.toNat = 0x04 + i) : readSlot s addr = limb s.b i := by
  rw [readSlot, h, if_neg (by omega), if_pos (by omega), Nat.add_sub_cancel_left]

theorem readSlot_q (s : State) {addr : LimbAddr} {i : Fin 4} (h : addr.toNat = 0x08 + i) : readSlot s addr = limb s.q i := by
  rw [readSlot, h, if_neg (by omega), if_neg (by omega), if_pos (by omega), Nat.add_sub_cancel_left]

theorem readSlot_r (s : State) {addr : LimbAddr} {i : Fin 4} (h : addr.toNat = 0x0C + i) : readSlot s addr = limb s.r i := by
  rw [readSlot, h, if_neg (by omega), if_neg (by omega), if_neg (by omega), if_pos (by omega), Nat.add_sub_cancel_left]

theorem readSlot_d (s : State) : readSlot s 0x10 = s.d := rfl

theorem readSlot_cmd (s : State) : readSlot s cmdAddr = 0 := rfl

theorem readSlot_status (s : State) : readSlot s statusAddr = s.status.word := rfl

theorem readSlot_reserved (s : State) {addr : LimbAddr} (h : 0x13 ≤ addr.toNat) : readSlot s addr = 0 := by
  rw [readSlot, if_neg (by omega), if_neg (by omega), if_neg (by omega), if_neg (by omega), if_neg (by omega), if_neg (by omega)]

/-! ### What an accepted write does (R56) -/

theorem writeSlot_a (s : State) {addr : LimbAddr} (v : Limb) {i : Fin 4} (h : addr.toNat = i) :
    writeSlot s addr v = { s with a := putLimb s.a i v } := by
  rw [writeSlot, h, if_pos i.isLt]

theorem writeSlot_b (s : State) {addr : LimbAddr} (v : Limb) {i : Fin 4} (h : addr.toNat = 0x04 + i) :
    writeSlot s addr v = { s with b := putLimb s.b i v } := by
  rw [writeSlot, h, if_neg (by omega), if_pos (by omega), Nat.add_sub_cancel_left]

theorem writeSlot_d (s : State) (v : Limb) : writeSlot s 0x10 v = { s with d := v } := rfl

/-- R56 to R58: `Q`, `R`, STATUS and the reserved slots. -/
theorem writeSlot_readOnly (s : State) {addr : LimbAddr} (v : Limb) (h : 8 ≤ addr.toNat) (hd : addr.toNat ≠ 0x10)
    (hc : addr.toNat ≠ 0x11) : writeSlot s addr v = s := by
  rw [writeSlot, if_neg (by omega), if_neg (by omega), if_neg hd, if_neg hc]

theorem limb_putLimb (x : Word) (i k : Fin 4) (v : Limb) : limb (putLimb x i v) k = if k = i then v else limb x k := by
  split_ifs with h
  · rw [h, limb_putLimb_same x i v i.isLt]
  · exact limb_putLimb_other x i k v i.isLt k.isLt (fun e => h (Fin.ext e))

/-! ### Reading after a write to `A`, `B` or `D` (R58) -/

/-- R51, R58: the read-write slots are the limbs of `A`, the limbs of `B`, and `D`. -/
theorem readWrite_cases {addr : LimbAddr} (h : addr.toNat < 8 ∨ addr = 0x10) :
    (∃ i : Fin 4, addr.toNat = i) ∨ (∃ i : Fin 4, addr.toNat = 0x04 + i) ∨ addr = 0x10 := by
  obtain h | h := h
  · by_cases h4 : addr.toNat < 4
    · exact .inl ⟨⟨_, h4⟩, rfl⟩
    · exact .inr (.inl ⟨⟨addr.toNat - 4, by omega⟩, by simp only; omega⟩)
  · exact .inr (.inr h)

theorem writeSlot_readWrite_status (s : State) {addr : LimbAddr} (v : Limb) (h : addr.toNat < 8 ∨ addr = 0x10) :
    (writeSlot s addr v).status = s.status := by
  obtain ⟨i, h⟩ | ⟨i, h⟩ | rfl := readWrite_cases h
  · rw [writeSlot_a s v h]
  · rw [writeSlot_b s v h]
  · rfl

theorem readSlot_writeSlot_same (s : State) {addr : LimbAddr} (v : Limb) (h : addr.toNat < 8 ∨ addr = 0x10) :
    readSlot (writeSlot s addr v) addr = v := by
  obtain ⟨i, h⟩ | ⟨i, h⟩ | rfl := readWrite_cases h
  · rw [writeSlot_a s v h, readSlot_a _ h, limb_putLimb_same _ _ _ i.isLt]
  · rw [writeSlot_b s v h, readSlot_b _ h, limb_putLimb_same _ _ _ i.isLt]
  · rfl

theorem readSlot_withA (s : State) (x : Word) {addr : LimbAddr} (h : 4 ≤ addr.toNat) :
    readSlot { s with a := x } addr = readSlot s addr := by
  simp only [readSlot, if_neg (Nat.not_lt.mpr h)]

theorem readSlot_withB (s : State) (x : Word) {addr : LimbAddr} (h : addr.toNat < 4 ∨ 8 ≤ addr.toNat) :
    readSlot { s with b := x } addr = readSlot s addr := by
  obtain h | h := h
  · simp only [readSlot, if_pos h]
  · simp only [readSlot, if_neg (Nat.not_lt.mpr h)]

theorem readSlot_withD (s : State) (x : Limb) {addr : LimbAddr} (h : addr ≠ 0x10) :
    readSlot { s with d := x } addr = readSlot s addr := by
  have h' : addr.toNat ≠ 0x10 := BitVec.toNat_ne.mp h
  simp only [readSlot, if_neg h']

theorem readSlot_writeSlot_other (s : State) {addr other : LimbAddr} (v : Limb) (h : addr.toNat < 8 ∨ addr = 0x10)
    (hne : other ≠ addr) : readSlot (writeSlot s addr v) other = readSlot s other := by
  have hne' : other.toNat ≠ addr.toNat := BitVec.toNat_ne.mp hne
  obtain ⟨i, h⟩ | ⟨i, h⟩ | rfl := readWrite_cases h
  · rw [writeSlot_a s v h]
    by_cases hA : ∃ k : Fin 4, other.toNat = k
    · obtain ⟨k, hk⟩ := hA
      rw [readSlot_a _ hk, readSlot_a _ hk, limb_putLimb, if_neg (by omega)]
    · exact readSlot_withA s _ (Nat.le_of_not_lt fun hlt => hA ⟨⟨_, hlt⟩, rfl⟩)
  · rw [writeSlot_b s v h]
    by_cases hB : ∃ k : Fin 4, other.toNat = 0x04 + k
    · obtain ⟨k, hk⟩ := hB
      rw [readSlot_b _ hk, readSlot_b _ hk, limb_putLimb, if_neg (by omega)]
    · refine readSlot_withB s _ ?_
      by_contra hout
      exact hB ⟨⟨other.toNat - 4, by omega⟩, by simp only; omega⟩
  · exact readSlot_withD s v hne

/-! ### The two accesses outside the hold (R55, R56, R61) -/

theorem memRead_idle {s : State} (addr : LimbAddr) (hb : s.status.busy = false) : memRead s addr = some (readSlot s addr) := by
  simp [memRead, hb]

theorem memWrite_idle {s : State} (addr : LimbAddr) (v : Limb) (hb : s.status.busy = false) (ha : s.status.abort = false) :
    memWrite s addr v = some (writeSlot s addr v) := by
  simp [memWrite, hb, ha]

/-- R56 to R58, R61: a write to a read-only or reserved slot is discarded, in the abort state as outside it. -/
theorem memWrite_readOnly {s : State} {addr : LimbAddr} (v : Limb) (hb : s.status.busy = false) (h : 8 ≤ addr.toNat)
    (hd : addr.toNat ≠ 0x10) (hc : addr.toNat ≠ 0x11) : memWrite s addr v = some s := by
  simp [memWrite, hb, writeSlot_readOnly s v h hd hc]

end Sys2Proof.Machine
end

section
/-! SUPPORT. The host's turn while its access is held, and in the abort state (spec 20_memory.md R60, R61; 60_exceptions.md R203). -/

namespace Sys2Proof.Machine

/-- R60: the accesses that `BUSY = 1` holds: every write, and every read but that of STATUS. -/
def Holdable (m : HostMove) : Prop :=
  (∃ addr, addr ≠ statusAddr ∧ m = .read addr) ∨ ∃ addr v, m = .write addr v

theorem hostTurn_held {s : State} {m : HostMove} {rest : List HostMove} (hb : s.status.busy = true) (hh : s.host = m :: rest)
    (hm : Holdable m) : hostTurn s = s := by
  obtain ⟨addr, ha, rfl⟩ | ⟨addr, v, rfl⟩ := hm
  · exact hostTurn_read_held hh hb ha
  · exact hostTurn_write_held hh hb

theorem statusWord_reset : Status.reset.word = 0 := rfl

/-- R44 (c), R200: in the abort state STATUS reads 0x14. -/
theorem statusWord_of_abort {s : State} (hs : s.StatusInv) (ha : s.status.abort = true) : s.status.word = 0x14 := by
  obtain ⟨-, -, habort⟩ := hs
  obtain ⟨hb, hv, he⟩ := habort ha
  simp only [Status.word, ha, hb, hv, he]
  rfl

end Sys2Proof.Machine
end

section
/-! The statements of 20_memory.md, settled. -/

namespace Sys2Proof.Machine

/-- Settles O9: the host's turn reads `readSlot`, whose value at each slot is a lemma of the register map. -/
theorem hostReadOfEverySlot : Obligations.HostReadOfEverySlot := by
  intro s addr rest ht hh
  rw [step_host ht]
  refine ⟨fun hb ha => congrArg _ (hostTurn_read_held (s := dropTurn s) hh hb ha), fun hp => ⟨readSlot s addr, ?_⟩⟩
  refine ⟨congrArg _ (hostTurn_read (s := dropTurn s) hh hp), fun _ => readSlot_a s, fun _ => readSlot_b s, fun _ => readSlot_q s,
    fun _ => readSlot_r s, ?_, ?_, ?_, readSlot_reserved s⟩ <;> rintro rfl
  · exact readSlot_d s
  · exact readSlot_cmd s
  · exact readSlot_status s

/-- Settles O10: a held and a discarded write leave the unit alone, and an accepted one is `writeSlot` at its slot. -/
theorem hostWriteOfEverySlot : Obligations.HostWriteOfEverySlot := by
  intro s addr v rest ht hh
  rw [step_host ht]
  refine ⟨fun hb => congrArg _ (hostTurn_write_held (s := dropTurn s) hh hb),
    fun hb ha => congrArg _ (hostTurn_write_discarded (s := dropTurn s) hh hb ha), fun hb ha => ?_⟩
  rw [hostTurn_write (s := dropTurn s) hh hb ha]
  refine ⟨fun i hi => ⟨putLimb s.a i v, ?_, fun k => limb_putLimb s.a i k v⟩,
    fun i hi => ⟨putLimb s.b i v, ?_, fun k => limb_putLimb s.b i k v⟩, ?_, fun h8 hd hc => ?_⟩
  · rw [writeSlot_a _ v hi]
    rfl
  · rw [writeSlot_b _ v hi]
    rfl
  · rintro rfl
    rw [writeSlot_d]
  · rw [writeSlot_readOnly _ v h8 (BitVec.toNat_ne.mp hd) (BitVec.toNat_ne.mp hc)]

/-- Settles O12: writes to the read-only slots are discarded, and an accepted write to `A`, `B` or `D` is seen at its own slot only. -/
theorem accessRights : Obligations.AccessRights := by
  intro s addr v hb
  refine ⟨fun hro => ?_, memRead_idle cmdAddr hb, fun ha hw => ⟨_, memWrite_idle addr v hb ha, ?_⟩⟩
  · obtain ⟨h8, h16⟩ | rfl := hro
    · exact memWrite_readOnly v hb h8 (by omega) (by omega)
    · exact memWrite_status v hb
  · have hb' : (writeSlot s addr v).status.busy = false := by rw [writeSlot_readWrite_status s v hw, hb]
    refine ⟨by rw [memRead_idle _ hb', readSlot_writeSlot_same s v hw], fun other hne => ?_⟩
    rw [memRead_idle _ hb', memRead_idle _ hb, readSlot_writeSlot_other s v hw hne]

/-- Settles O13: the host's turn leaves a held access; a completion (by the write table) and a reset keep the host's lists and end idle. -/
theorem heldAccessStaysPending : Obligations.HeldAccessStaysPending := by
  intro s m rest hb hh hm
  refine ⟨fun ht => ?_, ?_⟩
  · rw [step_host ht, hostTurn_held (s := dropTurn s) hb hh hm]
  · rintro (ht | ht)
    · obtain ⟨t, he, hidle, ⟨-, hhost, hseen, -⟩, -⟩ := registerWriteTable s.flight.op (dropTurn s)
      exact ⟨t, (step_unit_busy ht hb).trans he, hhost.trans hh, hseen, hidle⟩
    · exact ⟨_, step_reset ht, hh, rfl, rfl⟩

/-- Settles O48: by R44 the unit is idle, so no turn but a reset's reaches the unit's part of the state. -/
theorem abortStateOnlyResetLeaves : Obligations.AbortStateOnlyResetLeaves := by
  intro s hs ha
  have hword := statusWord_of_abort hs ha
  obtain ⟨-, -, habort⟩ := hs
  obtain ⟨hb, -, -⟩ := habort ha
  refine ⟨fun ht => step_unit_idle ht hb, fun ht => ?_, fun ht => ⟨_, step_reset ht, statusWord_reset⟩⟩
  rw [step_host ht]
  refine ⟨fun hh => ?_, fun addr v rest hh => ?_, fun addr rest hh => ?_, fun rest hh => ?_, fun rest hh => ?_⟩
  · rw [hostTurn_done (s := dropTurn s) hh]
  · rw [hostTurn_write_discarded (s := dropTurn s) hh hb ha]
  · rw [hostTurn_read (s := dropTurn s) hh (.inl hb)]
    rfl
  · rw [hostTurn_wait (s := dropTurn s) hh, dropTurn_status, hb, hword]
    rfl
  · exact ⟨_, congrArg _ (hostTurn_reset (s := dropTurn s) hh), statusWord_reset⟩

/-- Settles O11: the slots from 0x13 up read 0, and they lie beyond every slot that a write reaches. -/
theorem reservedSlots : Obligations.ReservedSlots := by
  intro s addr v h hb
  exact ⟨by rw [memRead_idle addr hb, readSlot_reserved s h], memWrite_readOnly v hb (by omega) (by omega) (by omega)⟩

end Sys2Proof.Machine
end

section
/-! SUPPORT. The decoder and the encoder (spec 30_encoding.md R71, R72, R74, R75): the two fields of a word as numbers, the opcode map,
and the verdict on a word in terms of both. -/

namespace Sys2Proof

/-! ### The fields of a word (R71) -/

theorem Cmd64.reservedClear_ofWord (w : Limb) : (Cmd64.ofWord w).reservedClear = true ↔ w.toNat / 2 ^ 4 = 0 := by
  have hzero : (w.extractLsb' 4 60).toNat = w.toNat / 2 ^ 4 := by
    rw [BitVec.extractLsb'_toNat, Nat.shiftRight_eq_div_pow, Nat.mod_eq_of_lt (by omega)]
  rw [Cmd64.reservedClear, beq_iff_eq, ← BitVec.toNat_inj]
  exact hzero ▸ Iff.rfl

theorem Cmd64.opcode_ofWord_toNat (w : Limb) : (Cmd64.ofWord w).opcode.toNat = w.toNat % 2 ^ 4 := by
  rw [Cmd64.ofWord, BitVec.extractLsb'_toNat, Nat.shiftRight_zero]

/-! ### The opcode map (R74) -/

theorem decodeOpcode_eq_some_iff (op : BitVec 4) (i : Instr) : decodeOpcode op = some i ↔ op = i.opcode := by
  cases i <;> revert op <;> decide

/-- R74: the opcodes of the commands are the integers 1 to 8. -/
theorem exists_opcode_toNat_iff (n : Nat) : (∃ i : Instr, n = i.opcode.toNat) ↔ 1 ≤ n ∧ n ≤ 8 := by
  constructor
  · rintro ⟨i, rfl⟩
    cases i <;> decide
  · rintro ⟨h1, h8⟩
    interval_cases n
    exacts [⟨.divrem64, rfl⟩, ⟨.divrem256, rfl⟩, ⟨.inv, rfl⟩, ⟨.invmod, rfl⟩, ⟨.div, rfl⟩, ⟨.rem, rfl⟩, ⟨.diva, rfl⟩,
      ⟨.rema, rfl⟩]

theorem encode_toNat (i : Instr) : (encode i).toNat = i.opcode.toNat := by
  cases i <;> rfl

/-! ### The verdict (R72, R75) -/

/-- R72: a word is a command exactly if its reserved bits are clear and its opcode is the command's. -/
theorem decode_eq_ok_iff (w : Limb) (i : Instr) :
    decode w = .ok i ↔ w.toNat / 2 ^ 4 = 0 ∧ w.toNat % 2 ^ 4 = i.opcode.toNat := by
  rw [← Cmd64.reservedClear_ofWord, ← Cmd64.opcode_ofWord_toNat, BitVec.toNat_inj, ← decodeOpcode_eq_some_iff, decode]
  split_ifs with hclear
  · cases decodeOpcode (Cmd64.ofWord w).opcode <;> simp [hclear]
  · simp [hclear]

theorem decode_eq_ok_iff_encode (w : Limb) (i : Instr) : decode w = .ok i ↔ w = encode i := by
  rw [decode_eq_ok_iff, ← BitVec.toNat_inj, encode_toNat]
  omega

theorem exists_decode_eq_ok_iff (w : Limb) : (∃ i, decode w = .ok i) ↔ 1 ≤ w.toNat ∧ w.toNat ≤ 8 := by
  simp only [decode_eq_ok_iff_encode, ← BitVec.toNat_inj, encode_toNat, exists_opcode_toNat_iff]

/-- R72, R75: every word but the integers 1 to 8 is illegal. -/
theorem decode_illegal {w : Limb} (h : ¬ (1 ≤ w.toNat ∧ w.toNat ≤ 8)) : ∃ e, decode w = .error e := by
  cases hd : decode w with
  | error e => exact ⟨e, rfl⟩
  | ok i => exact absurd ((exists_decode_eq_ok_iff w).mp ⟨i, hd⟩) h

/-- R74: the table's numbering of a word's bits changes nothing. -/
theorem decodeTableWord_eq_some_iff (nbits n : Nat) (i : Instr) : decodeTableWord nbits n = some i ↔ n = i.opcode.toNat := by
  have hop : i.opcode.toNat < 2 ^ 64 := lt_trans i.opcode.isLt (by decide)
  rw [decodeTableWord]
  split_ifs with hn
  · have hd : decode (BitVec.ofNat 64 n) = .ok i ↔ n = i.opcode.toNat := by
      rw [decode_eq_ok_iff_encode, ← BitVec.toNat_inj, encode_toNat, BitVec.toNat_ofNat, Nat.mod_eq_of_lt hn]
    rw [← hd]
    cases decode (BitVec.ofNat 64 n) <;> simp
  · exact iff_of_false nofun (by omega)

theorem decodeTableWord_eq_none_iff (nbits n : Nat) : decodeTableWord nbits n = none ↔ ¬ (1 ≤ n ∧ n ≤ 8) := by
  simp only [Option.eq_none_iff_forall_ne_some, ne_eq, decodeTableWord_eq_some_iff, ← exists_opcode_toNat_iff, not_exists]

end Sys2Proof
end

section
/-! SUPPORT. The host's turn on a write to CMD in an idle state that has not aborted, and on its RESET line (spec 30_encoding.md R72,
R77; 10_state.md R40; 60_exceptions.md R195; 70_reset_and_hazards.md R220). -/

namespace Sys2Proof.Machine

theorem Status.issued_of_noAbort {x : Status} (ha : x.abort = false) :
    x.issued = { busy := true, valid := false, err := .none, abort := false } := by
  rw [Status.issued, ha]

theorem Status.illegal_of_idle {x : Status} (hb : x.busy = false) (ha : x.abort = false) :
    x.illegal = { busy := false, valid := false, err := .illegalCommand, abort := false } := by
  rw [Status.illegal, hb, ha]

/-- R72: an accepted write to CMD, whatever the word. -/
theorem step_write_cmd {s : State} {w : Limb} {rest : List HostMove} (ht : nextTurn s = .host)
    (hh : s.host = .write cmdAddr w :: rest) (hb : s.status.busy = false) (ha : s.status.abort = false) :
    step s = .next { writeCommand w (dropTurn s) with host := rest } := by
  rw [step_host ht, hostTurn_write (s := dropTurn s) hh hb ha, writeSlot_cmd]

theorem step_hostReset {s : State} {rest : List HostMove} (ht : nextTurn s = .host) (hh : s.host = .reset :: rest) :
    step s = .next { resetUnit (dropTurn s) with host := rest } := by
  rw [step_host ht, hostTurn_reset (s := dropTurn s) hh]

end Sys2Proof.Machine
end

section
/-! The statements of 30_encoding.md, settled. -/

namespace Sys2Proof.Machine

/-- Settles O1: the verdict speaks of the two fields of a word, which together are the word's number, and a command's number is its
opcode. -/
theorem decodeInvertsEncode : Obligations.DecodeInvertsEncode :=
  ⟨decode_eq_ok_iff_encode, exists_decode_eq_ok_iff⟩

/-- Settles O3: the write is `writeCommand`, which follows the verdict on the word. -/
theorem commandWriteVerdict : Obligations.CommandWriteVerdict := by
  intro s w rest ht hh hb ha
  rw [step_write_cmd ht hh hb ha]
  refine ⟨fun hw => ?_, fun i hzero hop => ?_⟩
  · obtain ⟨e, he⟩ := decode_illegal (w := w) (by omega)
    rw [writeCommand_illegal he, ← Status.illegal_of_idle hb ha]
    rfl
  · rw [writeCommand_legal ((decode_eq_ok_iff w i).mpr ⟨hzero, hop⟩), ← Status.issued_of_noAbort ha]
    rfl

/-- Settles O2: a word of the table decodes exactly to the command with that opcode, and none is outside 1 to 8. -/
theorem tableWordsDecode : Obligations.TableWordsDecode := by
  have legal : ∀ i : Instr, decodeTableWord 64 i.opcode.toNat = some i := fun i => (decodeTableWord_eq_some_iff 64 _ i).mpr rfl
  have illegal : ∀ n, ¬ (1 ≤ n ∧ n ≤ 8) → decodeTableWord 64 n = none := fun n => (decodeTableWord_eq_none_iff 64 n).mpr
  exact ⟨legal .divrem64, legal .divrem256, legal .inv, legal .invmod, legal .div, legal .rem, legal .diva, legal .rema,
    illegal _ (by decide), illegal _ (by decide), illegal _ (by decide), illegal _ (by decide)⟩

/-- Settles O50: the reset leaves the unit idle and not aborted, where a write is accepted. -/
theorem hostResetLine : Obligations.HostResetLine := by
  intro s rest ht hh
  exact ⟨_, step_hostReset ht hh, statusWord_reset, rfl, rfl, rfl, fun v => by rw [memWrite_idle _ _ rfl rfl, writeSlot_d]⟩

end Sys2Proof.Machine
end

section
/-! SUPPORT. What the users of `div2by1` need to stay inside its precondition: the carries that the limb chain starts from (spec
41_short_division.md R102, 42_long_division.md R115), the two branches of the trial estimate (R120), the divisor's top limb (R117). -/

namespace Sys2Proof.Machine

theorem div2by1Pre_zero {d : Limb} (hd : d ≠ 0) : Div2by1Pre 0 d :=
  ⟨hd, (BitVec.pos_iff_ne_zero d).mpr hd⟩

/-- R91: the primitive's pair is the one pair of quotient and remainder of Euclidean division. -/
theorem div2by1_eq_iff {h l d : Limb} (pre : Div2by1Pre h d) (q r : Limb) :
    div2by1 h l d = (q, r) ↔ h.toNat * 2 ^ 64 + l.toNat = q.toNat * d.toNat + r.toNat ∧ r.toNat < d.toNat := by
  obtain ⟨hq, hr⟩ := div2by1_spec h l d pre
  have hpos : 0 < d.toNat := Nat.zero_lt_of_lt (BitVec.lt_def.mp pre.2)
  rw [Prod.ext_iff, ← BitVec.toNat_inj, ← BitVec.toNat_inj, hq, hr, Nat.div_mod_unique hpos, eq_comm, Nat.mul_comm d.toNat,
    Nat.add_comm r.toNat]

/-- R114: the overflow limb of the staged dividend is zero. -/
theorem limb_stage_four (a : Word) : limb (stage a) 4 = 0 := by
  have ha := a.isLt
  apply BitVec.eq_of_toNat_eq
  rw [limb_toNat, stage, BitVec.toNat_setWidth_of_le (by decide), Nat.div_eq_of_lt ha]
  rfl

theorem trialEstimate_of_le {top v : Limb} (mid : Limb) (h : v ≤ top) :
    trialEstimate top mid v = (2 ^ 64 - 1, mid.toNat + v.toNat) := if_pos h

theorem trialEstimate_of_not_le {top v : Limb} (mid : Limb) (h : ¬ v ≤ top) :
    trialEstimate top mid v = ((div2by1 top mid v).1.toNat, (div2by1 top mid v).2.toNat) := if_neg h

/-- R120: where the estimate is not capped, the window's top limb is below the divisor's, which is then not zero. -/
theorem div2by1Pre_of_not_le {top v : Limb} (h : ¬ v ≤ top) : Div2by1Pre top v := by
  have hlt : top < v := BitVec.not_le.mp h
  exact ⟨by rintro rfl; exact BitVec.not_lt_zero hlt, hlt⟩

/-- R112, R117: a divisor of two to four limbs has, once normalised, the top bit of its top limb set. -/
theorem normalised_topLimb (b : Word) (h : 2 ≤ (siglimbs b).val) :
    2 ^ 63 ≤ (limb (b <<< shiftCount b (siglimbs b).val) ((siglimbs b).val - 1)).toNat := by
  have hne : siglimbs b ≠ 0 := fun h0 => by simp [h0] at h
  obtain ⟨hfit, htop⟩ := siglimbs_spec b hne
  obtain ⟨k, hk⟩ : ∃ k, (siglimbs b).val = k + 2 := Nat.exists_eq_add_of_le' h
  have hk4 : k + 2 ≤ 4 := by omega
  rw [hk] at hfit htop ⊢
  obtain ⟨-, -, -, hbit⟩ := normalise_spec b k hfit hk4 htop
  exact hbit

end Sys2Proof.Machine
end

section
/-! The statements of 40_primitive_div2by1.md, settled. -/

namespace Sys2Proof.Machine

/-- Settles O24: the quotient and the remainder that the primitive computes are the only such pair. -/
theorem primitiveDivideContract : Obligations.PrimitiveDivideContract :=
  fun _ _ _ q r hd hlt => div2by1_eq_iff ⟨hd, hlt⟩ q r

/-- Settles O25: each remainder is below the divisor, so the next use of the chain is inside the precondition; the estimate uses the
primitive only where the window's top limb is below the divisor's. -/
theorem primitiveUsedInsideContract : Obligations.PrimitiveUsedInsideContract := by
  refine ⟨fun a d hd => ?_, fun top mid v _ => ?_, fun b _ _ hn => ⟨normalised_topLimb b hn, rfl⟩⟩
  · have p3 := div2by1Pre_zero hd
    obtain ⟨e3, b3⟩ := div2by1_recombine 0 (limb a 3) d p3
    obtain ⟨e2, b2⟩ := div2by1_recombine _ (limb a 2) d ⟨hd, b3⟩
    obtain ⟨e1, b1⟩ := div2by1_recombine _ (limb a 1) d ⟨hd, b2⟩
    obtain ⟨e0, -⟩ := div2by1_recombine _ (limb a 0) d ⟨hd, b1⟩
    have hzero : (0 : Limb).toNat * 2 ^ 64 = 0 := rfl
    rw [hzero, Nat.zero_add] at e3
    rw [limb_stage_four]
    exact ⟨⟨p3, ⟨hd, b3⟩, ⟨hd, b2⟩, ⟨hd, b1⟩⟩, ⟨e3, e2, e1, e0⟩, rfl, rfl⟩
  · exact ⟨trialEstimate_of_le mid, fun h => ⟨div2by1Pre_of_not_le h, trialEstimate_of_not_le mid h⟩⟩

end Sys2Proof.Machine
end

section
/-! SUPPORT. The limbs of a 64-bit result in a 256-bit register (spec 30_encoding.md R73, 41_short_division.md R101). -/

namespace Sys2Proof.Machine

/-- R73: zero-extension puts the value in limb 0 and zero in the three limbs above. -/
theorem ofLimb_eq_ofLimbs (x : Limb) : ofLimb x = ofLimbs x 0 0 0 := by
  apply BitVec.eq_of_toNat_eq
  rw [ofLimb_toNat, ofLimbs_toNat]
  rfl

theorem limb_ofLimb (x : Limb) :
    limb (ofLimb x) 0 = x ∧ limb (ofLimb x) 1 = 0 ∧ limb (ofLimb x) 2 = 0 ∧ limb (ofLimb x) 3 = 0 :=
  ofLimb_eq_ofLimbs x ▸ limb_ofLimbs x 0 0 0

end Sys2Proof.Machine
end

section
/-! The statement of 41_short_division.md, settled. -/

namespace Sys2Proof.Machine

/-- Settles O26: a zero divisor ends the command before the chain; any other starts the chain with the carry 0, which makes it floor
and mod. -/
theorem shortDivisionResult : Obligations.ShortDivisionResult := by
  intro s
  refine ⟨exec_divrem64_zero, fun hd => ?_⟩
  obtain ⟨hquot, hrem⟩ := limbChain_spec s.sa s.sd hd
  obtain ⟨h0, h1, h2, h3⟩ := limb_ofLimb (limbChain 0 s.sa s.sd).rem
  exact ⟨_, _, hquot, (congrArg BitVec.toNat h0).trans hrem, h1, h2, h3, exec_divrem64_nonzero hd⟩

end Sys2Proof.Machine
end

section
/-! SUPPORT. The limbs of a shifted value and of the staged dividend (spec 42_long_division.md R114, R116 to R118). -/

namespace Sys2Proof.Machine

/-- R12: a limb that lies wholly in the register loses nothing by a shift that drops bits at its top. -/
theorem limb_shiftLeft_toNat {w : Nat} (x : BitVec w) (s : Nat) {i : Nat} (hi : 64 * (i + 1) ≤ w) :
    (limb (x <<< s) i).toNat = x.toNat * 2 ^ s / 2 ^ (64 * i) % 2 ^ 64 := by
  have hw : 2 ^ w = 2 ^ (64 * i) * 2 ^ (w - 64 * i) := by rw [← pow_add, Nat.add_sub_cancel' (by omega)]
  rw [limb_toNat, BitVec.toNat_shiftLeft, Nat.shiftLeft_eq, hw, Nat.mod_mul_right_div_self,
    Nat.mod_mod_of_dvd _ (pow_dvd_pow 2 (by omega))]

/-- R116, R118: the lowest limb of a shifted value takes no bits from below. -/
theorem limb_shiftLeft_zero {w : Nat} (x : BitVec w) (s : Nat) (hw : 64 ≤ w) :
    (limb (x <<< s) 0).toNat = (limb x 0).toNat * 2 ^ s % 2 ^ 64 := by
  rw [limb_shiftLeft_toNat x s (by omega), limb_toNat, Nat.mul_zero, pow_zero, Nat.div_one, Nat.div_one, Nat.mod_mul_mod]

/-- R116, R118: every other limb takes the `s` bits that are shifted out of the limb below it. -/
theorem limb_shiftLeft_succ {w : Nat} (x : BitVec w) {s : Nat} (hs : s ≤ 63) {i : Nat} (hi : 64 * (i + 2) ≤ w) :
    (limb (x <<< s) (i + 1)).toNat = ((limb x (i + 1)).toNat * 2 ^ s + (limb x i).toNat / 2 ^ (64 - s)) % 2 ^ 64 := by
  have h64 : 2 ^ 64 = 2 ^ (64 - s) * 2 ^ s := by rw [← pow_add, Nat.sub_add_cancel (by omega)]
  have hstep : 2 ^ (64 * (i + 1)) = 2 ^ (64 * i) * 2 ^ 64 := pow_limb_succ i
  rw [limb_shiftLeft_toNat x s hi, limb_toNat, limb_toNat, hstep, ← Nat.div_div_eq_div_mul x.toNat]
  have hdiv : x.toNat * 2 ^ s / (2 ^ (64 * i) * 2 ^ 64) = x.toNat / 2 ^ (64 * i) / 2 ^ (64 - s) := by
    rw [h64, ← Nat.mul_assoc, Nat.mul_div_mul_right _ _ (by positivity), Nat.div_div_eq_div_mul]
  rw [hdiv]
  generalize x.toNat / 2 ^ (64 * i) = y
  have hsplit : y / 2 ^ (64 - s) = y / 2 ^ 64 * 2 ^ s + y % 2 ^ 64 / 2 ^ (64 - s) := by
    have hy : y = y % 2 ^ 64 + 2 ^ (64 - s) * (y / 2 ^ 64 * 2 ^ s) := by
      calc y = y % 2 ^ 64 + 2 ^ 64 * (y / 2 ^ 64) := (Nat.mod_add_div _ _).symm
        _ = y % 2 ^ 64 + 2 ^ (64 - s) * 2 ^ s * (y / 2 ^ 64) := by rw [← h64]
        _ = _ := by ring
    conv_lhs => rw [hy, Nat.add_mul_div_left _ _ (by positivity)]
    exact Nat.add_comm _ _
  rw [hsplit, Nat.add_mod, ← Nat.mod_mul_mod, ← Nat.add_mod]

/-- R114: staging keeps every bit. -/
theorem stage_toNat (a : Word) : (stage a).toNat = a.toNat := BitVec.toNat_setWidth_of_le (by decide)

/-- R114: so it keeps every limb. -/
theorem limb_stage (a : Word) (i : Nat) : limb (stage a) i = limb a i :=
  BitVec.eq_of_toNat_eq (by rw [limb_toNat, limb_toNat, stage_toNat])

/-- R118: the fifth limb of the numerator is what is shifted out of the dividend, at most `s` bits. -/
theorem limb_shifted_stage_four_lt (a : Word) {s : Nat} (hs : s ≤ 63) : (limb (stage a <<< s) 4).toNat < 2 ^ s := by
  rw [limb_toNat, normalisedNumerator_toNat a s hs]
  refine lt_of_le_of_lt (Nat.mod_le _ _) (Nat.div_lt_of_lt_mul ?_)
  exact Nat.mul_lt_mul_of_pos_right a.isLt (by positivity)

/-- R118: the fifth limb of the numerator, exactly. -/
theorem limb_shifted_stage_four (a : Word) {s : Nat} (hs : s ≤ 63) :
    (limb (stage a <<< s) 4).toNat = (limb a 3).toNat / 2 ^ (64 - s) := by
  have hlt : (limb a 3).toNat / 2 ^ (64 - s) < 2 ^ 64 := lt_of_le_of_lt (Nat.div_le_self _ _) (limb a 3).isLt
  have hzero : (0 : Limb).toNat = 0 := rfl
  rw [limb_shiftLeft_succ (stage a) hs (i := 3) (by decide), limb_stage_four, limb_stage, hzero, Nat.zero_mul,
    Nat.zero_add, Nat.mod_eq_of_lt hlt]

end Sys2Proof.Machine
end

section
/-! SUPPORT. The effective width of a divisor, and what normalisation makes of a divisor of two to four limbs (spec
42_long_division.md R112 to R117). -/

namespace Sys2Proof.Machine

/-- R112: a value fits in its effective width, zero included. -/
theorem toNat_lt_siglimbs (b : Word) : b.toNat < 2 ^ (64 * (siglimbs b).val) := by
  by_cases h : siglimbs b = 0
  · rw [(siglimbs_eq_zero b).mp h]
    decide
  · exact (siglimbs_spec b h).1

/-- R112: a divisor of two limbs or more is not zero. -/
theorem siglimbs_ne_zero_of_two_le {b : Word} (h : 2 ≤ (siglimbs b).val) : siglimbs b ≠ 0 := fun h0 => by simp [h0] at h

/-- R116, R117: `normalise_spec` at the effective width. -/
theorem normalise_siglimbs {b : Word} {n s : Nat} (hn : n = (siglimbs b).val) (h2 : 2 ≤ n) (hs : s = shiftCount b n) :
    s ≤ 63 ∧ (b <<< s).toNat = b.toNat * 2 ^ s ∧ (b <<< s).toNat < 2 ^ (64 * n) ∧ 2 ^ 63 ≤ (limb (b <<< s) (n - 1)).toNat := by
  subst hs
  obtain ⟨k, rfl⟩ := Nat.exists_eq_add_of_le' h2
  obtain ⟨hfit, htop⟩ := siglimbs_spec b (siglimbs_ne_zero_of_two_le (hn ▸ h2))
  rw [← hn] at hfit htop
  obtain ⟨h63, hval, hlt, hbit⟩ := normalise_spec b k hfit (by omega) htop
  exact ⟨h63, hval, hval ▸ hlt, hbit⟩

/-- R113: from two limbs on, the unit's division is Algorithm D, whatever its scratch held. -/
theorem longDivide_of_two_le (old : DivScratch) (a b : Word) (h : 2 ≤ (siglimbs b).val) :
    longDivide old a b = knuthDivide (siglimbs b) a b := by
  have h1 : siglimbs b ≠ 1 := fun e => by simp [e] at h
  simp only [longDivide, if_neg (siglimbs_ne_zero_of_two_le h), if_neg h1]

end Sys2Proof.Machine
end

section
/-! SUPPORT. The digit loop on single limbs: when the correction loop has ended (spec 42_long_division.md R120, R126), and what one
iteration leaves in each limb (R121 to R123). -/

namespace Sys2Proof.Machine

/-- R120: a remainder that has reached `2^64` ends the correction loop. -/
theorem trialCorrect_of_wide {rhat : Nat} (h : 2 ^ 64 ≤ rhat) (vTop vNext low : Limb) (fuel qhat : Nat) :
    trialCorrect vTop vNext low fuel qhat rhat = (qhat, rhat) := by
  cases fuel with
  | zero => rfl
  | succ fuel => rw [trialCorrect, trialTooLarge, decide_eq_false (Nat.not_lt.mpr h), Bool.false_and, if_neg Bool.false_ne_true]

/-- R126: every correction adds the divisor's top limb to the remainder, so rounds beyond those that bring it to `2^64` do nothing. -/
theorem trialCorrect_fuel_add {vTop vNext low : Limb} (extra fuel : Nat) :
    ∀ qhat rhat : Nat, 2 ^ 64 ≤ rhat + fuel * vTop.toNat →
      trialCorrect vTop vNext low (fuel + extra) qhat rhat = trialCorrect vTop vNext low fuel qhat rhat := by
  induction fuel with
  | zero =>
    intro qhat rhat h
    have hwide : 2 ^ 64 ≤ rhat := by simpa using h
    rw [trialCorrect_of_wide hwide, trialCorrect_of_wide hwide]
  | succ fuel ih =>
    intro qhat rhat h
    rw [Nat.succ_add, trialCorrect, trialCorrect, ih _ _ (by rw [Nat.succ_mul] at h; omega)]

/-- R126: with a divisor of two limbs the correction test looks at the whole divisor, so the digit that passes it is not too large. -/
theorem trialDigit_two_limbs {v : Word} {j : Nat} {num : Scratch} (hv : v.toNat < 2 ^ (64 * 2))
    (htop : 2 ^ 63 ≤ (limb v 1).toNat) (hW : limbs num j 3 < v.toNat * 2 ^ 64) :
    trialDigit 2 v j num = limbs num j 3 / v.toNat := by
  obtain ⟨hle, -, -, htest⟩ := trialDigit_spec 0 v j num hv htop hW
  have hwin : limbs num j 3 =
      ((limb num (j + 2)).toNat * 2 ^ 64 + (limb num (j + 1)).toNat) * 2 ^ 64 + (limb num j).toNat := by
    simpa [limbs, Nat.mod_one] using limbs_split_three num j 0
  have hdiv : v.toNat = (limb v 1).toNat * 2 ^ 64 + (limb v 0).toNat := by
    simpa [Nat.mod_one] using divisor_split_two v 0 hv
  have hpos : 0 < v.toNat := by omega
  refine Nat.le_antisymm ((Nat.le_div_iff_mul_le hpos).mpr ?_) hle
  rw [hwin, hdiv]
  exact htest

/-- R12: limbs below limb `j` are part of the value modulo `2^(64j)`. -/
theorem limb_eq_of_mod_eq {w j k : Nat} {x y : BitVec w} (h : x.toNat % 2 ^ (64 * j) = y.toNat % 2 ^ (64 * j)) (hk : k < j) :
    limb x k = limb y k := by
  have hj : 2 ^ (64 * j) = 2 ^ (64 * k) * (2 ^ 64 * 2 ^ (64 * (j - k - 1))) := by
    rw [← pow_add, ← pow_add]
    congr 1
    omega
  have hlimb : ∀ z : BitVec w, (limb z k).toNat = z.toNat % 2 ^ (64 * j) / 2 ^ (64 * k) % 2 ^ 64 := fun z => by
    rw [limb_toNat, hj, Nat.mod_mul_right_div_self, Nat.mod_mul_right_mod]
  exact BitVec.eq_of_toNat_eq (by rw [hlimb, hlimb, h])

/-- R12: limbs from limb `i` up are part of the value divided by `2^(64i)`. -/
theorem limb_eq_of_div_eq {w i k : Nat} {x y : BitVec w} (h : x.toNat / 2 ^ (64 * i) = y.toNat / 2 ^ (64 * i)) (hk : i ≤ k) :
    limb x k = limb y k := by
  have hi : 2 ^ (64 * k) = 2 ^ (64 * i) * 2 ^ (64 * (k - i)) := by
    rw [← pow_add, ← Nat.mul_add, Nat.add_sub_cancel' hk]
  exact BitVec.eq_of_toNat_eq (by rw [limb_toNat, limb_toNat, hi, ← Nat.div_div_eq_div_mul, ← Nat.div_div_eq_div_mul, h])

/-- R121 to R123: the remainder of the window is below `V`, so it fits in the `n` limbs of `V`. -/
theorem window_mod_lt {k j : Nat} {v : Word} {num : Scratch} (hv : v.toNat < 2 ^ (64 * (k + 2)))
    (hW : limbs num j (k + 3) < v.toNat * 2 ^ 64) : limbs num j (k + 3) % v.toNat < 2 ^ (64 * (k + 2)) :=
  lt_trans (Nat.mod_lt _ (Nat.pos_of_ne_zero fun h0 => by simp [h0] at hW)) hv

section
variable {k j : Nat} {v : Word} {num : Scratch} (hj : j + (k + 2) ≤ 4) (hv : v.toNat < 2 ^ (64 * (k + 2)))
  (htop : 2 ^ 63 ≤ (limb v (k + 1)).toNat) (hW : limbs num j (k + 3) < v.toNat * 2 ^ 64)
include hj hv htop hW

/-- R123: the buffer after one iteration, from the limbs below the window up: they, the remainder, the digit, the limbs above. -/
theorem digitStep_layers :
    (digitStep (k + 2) v j num).toNat = num.toNat % 2 ^ (64 * j) + 2 ^ (64 * j) *
      (limbs num j (k + 3) % v.toNat + 2 ^ (64 * (k + 2)) *
        (limbs num j (k + 3) / v.toNat + 2 ^ 64 * (num.toNat / 2 ^ (64 * (j + (k + 2) + 1))))) := by
  have hp : 2 ^ (64 * j) * (2 ^ 64 * 2 ^ (64 * (k + 2))) = 2 ^ (64 * (j + (k + 2) + 1)) := by
    rw [← pow_add, ← pow_add]
    congr 1
    ring
  rw [digitStep_toNat k v j num hj hv htop hW, ← hp]
  ring

/-- R119: below the window the buffer is as before. -/
theorem digitStep_mod : (digitStep (k + 2) v j num).toNat % 2 ^ (64 * j) = num.toNat % 2 ^ (64 * j) := by
  rw [digitStep_layers hj hv htop hW, Nat.add_mul_mod_self_left, Nat.mod_mod]

/-- R123: the buffer from the window up: the remainder, the digit, the limbs above. -/
theorem digitStep_div : (digitStep (k + 2) v j num).toNat / 2 ^ (64 * j) =
    limbs num j (k + 3) % v.toNat + 2 ^ (64 * (k + 2)) *
      (limbs num j (k + 3) / v.toNat + 2 ^ 64 * (num.toNat / 2 ^ (64 * (j + (k + 2) + 1)))) := by
  have hpos : 0 < 2 ^ (64 * j) := by positivity
  rw [digitStep_layers hj hv htop hW, Nat.add_mul_div_left _ _ hpos, Nat.div_eq_of_lt (Nat.mod_lt _ hpos), Nat.zero_add]

/-- R123: the buffer from the window's top limb up: the digit and the limbs above. -/
theorem digitStep_digits : (digitStep (k + 2) v j num).toNat / 2 ^ (64 * (j + (k + 2))) =
    limbs num j (k + 3) / v.toNat + 2 ^ 64 * (num.toNat / 2 ^ (64 * (j + (k + 2) + 1))) := by
  have hrem := window_mod_lt hv hW
  rw [Nat.mul_add, pow_add, ← Nat.div_div_eq_div_mul, digitStep_div hj hv htop hW, Nat.add_mul_div_left _ _ (by positivity),
    Nat.div_eq_of_lt hrem, Nat.zero_add]

/-- R123: the remainder in the low limbs of the window. -/
theorem digitStep_low_limbs : limbs (digitStep (k + 2) v j num) j (k + 2) = limbs num j (k + 3) % v.toNat := by
  have hrem := window_mod_lt hv hW
  rw [limbs, digitStep_div hj hv htop hW, Nat.add_mul_mod_self_left, Nat.mod_eq_of_lt hrem]

/-- R123: the digit in the window's top limb. -/
theorem digitStep_digit_limb : (limb (digitStep (k + 2) v j num) (j + (k + 2))).toNat = limbs num j (k + 3) / v.toNat := by
  rw [limb_toNat, digitStep_digits hj hv htop hW, Nat.add_mul_mod_self_left, Nat.mod_eq_of_lt (Nat.div_lt_of_lt_mul hW)]

/-- R119: the limbs outside the window are left alone. -/
theorem digitStep_other_limb {i : Nat} (hi : i < j ∨ j + (k + 2) < i) :
    limb (digitStep (k + 2) v j num) i = limb num i := by
  obtain hlow | hhigh := hi
  · exact limb_eq_of_mod_eq (digitStep_mod hj hv htop hW) hlow
  · refine limb_eq_of_div_eq ?_ hhigh
    rw [Nat.mul_succ, pow_add, ← Nat.div_div_eq_div_mul, digitStep_digits hj hv htop hW, Nat.add_mul_div_left _ _ (by positivity),
      Nat.div_eq_of_lt (Nat.div_lt_of_lt_mul hW), Nat.zero_add, ← pow_add]
    rfl

end

/-- R125 (c): a window below `V * 2^64` has no larger top limb than the divisor. -/
theorem window_topLimb_le {k j : Nat} {v : Word} {num : Scratch} (hv : v.toNat < 2 ^ (64 * (k + 2)))
    (hW : limbs num j (k + 3) < v.toNat * 2 ^ 64) : limb num (j + (k + 2)) ≤ limb v (k + 1) := by
  have hwin := limbs_split_three num j k
  have hdiv := divisor_split_two v k hv
  have hrest : v.toNat % 2 ^ (64 * k) < 2 ^ (64 * k) := Nat.mod_lt _ (by positivity)
  have hnext := (limb v k).isLt
  rw [BitVec.le_def]
  by_contra hlt
  have hstep : ((limb v (k + 1)).toNat + 1) * (2 ^ 64 * 2 ^ 64 * 2 ^ (64 * k)) ≤
      (limb num (j + (k + 2))).toNat * (2 ^ 64 * 2 ^ 64 * 2 ^ (64 * k)) := Nat.mul_le_mul_right _ (by omega)
  nlinarith

end Sys2Proof.Machine
end

section
/-! The statements of 42_long_division.md, settled. -/

namespace Sys2Proof.Machine

/-- Settles O27, by the two equations of the command. -/
theorem longDivisionResult : Obligations.LongDivisionResult :=
  fun s => ⟨fun h => ⟨_, exec_divrem256_zero h⟩,
    fun h => ⟨_, _, _, ofNat_div_toNat s.sa s.sb, ofNat_mod_toNat s.sa s.sb, exec_divrem256_nonzero h⟩⟩

/-- Settles O29: normalisation at the effective width, and the limbs of a shifted value. -/
theorem normalisedDivisorLimbs : Obligations.NormalisedDivisorLimbs := by
  intro b n s hn h2 hs
  obtain ⟨h63, hval, hlt, hbit⟩ := normalise_siglimbs hn h2 hs
  refine ⟨h63, hval, hlt, hbit, limb_shiftLeft_zero b s (by decide), fun _ i h1 hi => ?_, fun h0 i => ?_⟩
  · obtain ⟨i, rfl⟩ := Nat.exists_eq_add_of_le' h1
    exact limb_shiftLeft_succ b h63 (by omega)
  · rw [h0, BitVec.shiftLeft_zero]

/-- Settles O30: staging keeps the limbs of the dividend, and the limbs of a shifted value. -/
theorem normalisedNumeratorLimbs : Obligations.NormalisedNumeratorLimbs := by
  intro a s h63
  refine ⟨normalisedNumerator_toNat a s h63, limb_shifted_stage_four_lt a h63, fun i _ => limb_stage a i, limb_stage_four a,
    fun h0 => ?_, fun _ => ⟨limb_shifted_stage_four a h63, fun i h1 hi => ?_⟩, ?_⟩
  · rw [h0, BitVec.shiftLeft_zero, limb_stage_four]
  · obtain ⟨i, rfl⟩ := Nat.exists_eq_add_of_le' h1
    rw [limb_shiftLeft_succ (stage a) h63 (by omega), limb_stage, limb_stage]
    rfl
  · rw [limb_shiftLeft_zero (stage a) s (by decide), limb_stage]

/-- Settles O31: two corrections bring the remainder to `2^64`, for the top bit of the divisor is set. -/
theorem trialDigitError : Obligations.TrialDigitError := by
  intro n v j num h2 _ hv htop hW
  obtain ⟨k, rfl⟩ := Nat.exists_eq_add_of_le' h2
  obtain ⟨hle, hge, -⟩ := trialDigit_spec k v j num hv htop hW
  refine ⟨hle, hge, fun hk => ?_, fun extra => ?_⟩
  · obtain rfl : k = 0 := by omega
    exact trialDigit_two_limbs hv htop hW
  · rw [trialCorrect_fuel_add extra 2 _ _ (by omega)]
    rfl

/-- Settles O32: the buffer after the iteration is the limbs below, the remainder, the digit and the limbs above. -/
theorem digitStepDividesWindow : Obligations.DigitStepDividesWindow := by
  intro n v j num h2 hj hv htop hW
  obtain ⟨k, rfl⟩ := Nat.exists_eq_add_of_le' h2
  exact ⟨digitStep_low_limbs hj hv htop hW, digitStep_digit_limb hj hv htop hW, fun _ _ hi => digitStep_other_limb hj hv htop hW hi⟩

/-- Settles O33: both commands end the same way, and both results are floor and mod by the one divisor. -/
theorem shortAndLongDivisionAgree : Obligations.ShortAndLongDivisionAgree := by
  intro s hd
  by_cases h : s.sd = 0
  · have hb : s.sb = 0 := BitVec.eq_of_toNat_eq (by rw [hd, h]; rfl)
    exact ⟨_, _, exec_divrem64_zero h, exec_divrem256_zero hb, rfl, rfl, rfl⟩
  · have hb : s.sb ≠ 0 := fun hb => h (BitVec.eq_of_toNat_eq (by rw [← hd, hb]; rfl))
    obtain ⟨hquot, hrem⟩ := limbChain_spec s.sa s.sd h
    refine ⟨_, _, exec_divrem64_nonzero h, exec_divrem256_nonzero hb, BitVec.eq_of_toNat_eq ?_, BitVec.eq_of_toNat_eq ?_, rfl⟩
    · exact hquot.trans (by rw [← hd]; exact (ofNat_div_toNat s.sa s.sb).symm)
    · exact (ofLimb_toNat _).trans (hrem.trans (by rw [← hd]; exact (ofNat_mod_toNat s.sa s.sb).symm))

/-- Settles O53: normalisation at the effective width gives the loop's lemmas what they ask of the divisor. -/
theorem digitLoopInvariant : Obligations.DigitLoopInvariant := by
  intro a b n s hn h2 hs v num0
  obtain ⟨h63, hval, hlt, hbit⟩ := normalise_siglimbs hn h2 hs
  have hnum : num0.toNat = a.toNat * 2 ^ s := normalisedNumerator_toNat a s h63
  have hpos : 0 < 2 ^ s := by positivity
  obtain ⟨k, rfl⟩ := Nat.exists_eq_add_of_le' h2
  have hk : k + 2 ≤ 4 := by omega
  have hinit : DigitInv (k + 2) v num0 (4 - (k + 2) + 1) num0 := digitInv_init k v a s hk h63 hlt hbit
  have hlast : 4 - (k + 2) + 1 = 5 - (k + 2) := by omega
  refine ⟨⟨?_, ?_⟩, hlast ▸ hinit, fun j num hj h => ?_, fun num => DigitInv.result hval hnum, ?_, fun old => ?_⟩
  · rw [hnum, hval, Nat.mul_div_mul_right _ _ hpos]
  · rw [hnum, hval, Nat.mul_mod_mul_right]
  · have hW := h.window_lt hj
    exact ⟨hW, window_topLimb_le hlt hW, digitStep_inv k v num0 hlt hbit j num hj h⟩
  · exact digitLoop_inv k v num0 hlt hbit _ num0 (by omega) hinit
  · have h2' : 2 ≤ (siglimbs b).val := hn ▸ h2
    obtain ⟨hfit, htop⟩ := siglimbs_spec b (siglimbs_ne_zero_of_two_le h2')
    obtain ⟨-, hinv⟩ := knuthDivide_spec (siglimbs b) a b h2' hfit htop
    rw [longDivide_of_two_le old a b h2']
    rwa [← hn, ← hs] at hinv

/-- Settles O28: the scan stops at the highest non-zero limb. -/
theorem effectiveDivisorWidth : Obligations.EffectiveDivisorWidth := by
  intro b
  refine ⟨fun h3 => if_pos h3, fun h3 h2 => ?_, fun h3 h2 h1 => ?_, fun h3 h2 h1 h0 => ?_, (siglimbs_eq_zero b).mpr,
    toNat_lt_siglimbs b⟩ <;> unfold siglimbs
  · rw [if_neg (not_not.mpr h3), if_pos h2]
  · rw [if_neg (not_not.mpr h3), if_neg (not_not.mpr h2), if_pos h1]
  · rw [if_neg (not_not.mpr h3), if_neg (not_not.mpr h2), if_neg (not_not.mpr h1), if_pos h0]

end Sys2Proof.Machine
end

section
/-! SUPPORT. The wrapping products and the parity of the ring-inverse engine as facts about integers, and the inverse of an inverse
(spec 43_ring_inverse.md R142, R151). -/

namespace Sys2Proof.Machine

/-- R14: the tested bit is the parity. -/
theorem isOdd_eq_true_iff (x : Word) : isOdd x = true ↔ x.toNat % 2 = 1 := by
  rw [isOdd, BitVec.getLsbD, Nat.testBit_zero, decide_eq_true_iff]

/-- R14: a clear lowest bit is an even value. -/
theorem isOdd_eq_false_iff (x : Word) : isOdd x = false ↔ x.toNat % 2 = 0 := by
  rw [← Bool.not_eq_true, isOdd_eq_true_iff, Nat.mod_two_not_eq_one]

/-- R13: a wrapping product is 1 when the integer product is 1 modulo `2^256`. -/
theorem mul_eq_one_iff_toNat (a x : Word) : a * x = 1 ↔ a.toNat * x.toNat % 2 ^ 256 = 1 := by
  rw [← BitVec.toNat_inj, BitVec.toNat_mul]
  rfl

/-- A congruence to 1 modulo a power of two above 1, as a remainder of natural numbers. -/
theorem mul_mod_two_pow_eq_one {x y p : Nat} (hp : p ≠ 0) (h : (x : ℤ) * y ≡ 1 [ZMOD 2 ^ p]) : x * y % 2 ^ p = 1 := by
  have hn : x * y ≡ 1 [MOD 2 ^ p] := by
    rw [← Int.natCast_modEq_iff]
    push_cast
    exact h
  exact Eq.trans hn (Nat.mod_eq_of_lt (Nat.one_lt_two_pow hp))

/-- R142: a value with a wrapping inverse is odd. -/
theorem isOdd_of_mul_eq_one {a x : Word} (h : a * x = 1) : isOdd a = true := by
  have hmod := (mul_eq_one_iff_toNat a x).mp h
  have hprod : a.toNat * x.toNat % 2 = 1 := by omega
  exact (isOdd_eq_true_iff a).mpr (Nat.odd_iff.mp (Nat.odd_mul.mp (Nat.odd_iff.mpr hprod)).1)

/-- R142: the inverse is odd. -/
theorem isOdd_henselInverse {a : Word} (ha : isOdd a = true) : isOdd (henselInverse a) = true :=
  isOdd_of_mul_eq_one ((BitVec.mul_comm _ _).trans (henselInverse_spec a ha))

/-- R151: the inverse of the inverse is the value. -/
theorem henselInverse_henselInverse {a : Word} (ha : isOdd a = true) : henselInverse (henselInverse a) = a :=
  (henselInverse_unique _ a (isOdd_henselInverse ha) ((BitVec.mul_comm _ _).trans (henselInverse_spec a ha))).symm

end Sys2Proof.Machine
end

section
/-! The statements of 43_ring_inverse.md, settled. -/

namespace Sys2Proof.Machine

/-- Settles O34: the command tests the parity, and the engine's result is the only inverse. -/
theorem ringInverseResult : Obligations.RingInverseResult := by
  intro s
  refine ⟨fun h => exec_inv_even ((isOdd_eq_false_iff s.sa).mpr h), fun h => ?_⟩
  have hodd := (isOdd_eq_true_iff s.sa).mpr h
  exact ⟨henselInverse s.sa, henselInverse s.sa, (mul_eq_one_iff_toNat _ _).mp (henselInverse_spec s.sa hodd),
    fun y hy => henselInverse_unique s.sa y hodd ((mul_eq_one_iff_toNat _ _).mpr hy), exec_inv_odd hodd⟩

/-- Settles O35: the seed has 4 correct bits, and every step doubles them. -/
theorem henselPrecisionChain : Obligations.HenselPrecisionChain := by
  intro a ha c r0 r1 r2 r3 r4 c128 z4 r5 z5 r6
  have hodd := (isOdd_eq_true_iff a).mpr ha
  have hc : c.getLsbD 0 = true := by simpa [c, limb, isOdd] using hodd
  have h4 : (c.toNat : ℤ) * r0.toNat ≡ 1 [ZMOD 2 ^ 4] := henselSeed_spec c hc
  have h8 : (c.toNat : ℤ) * r1.toNat ≡ 1 [ZMOD 2 ^ 8] := newtonStep_doubles c r0 4 (by decide) h4
  have h16 : (c.toNat : ℤ) * r2.toNat ≡ 1 [ZMOD 2 ^ 16] := newtonStep_doubles c r1 8 (by decide) h8
  have h32 : (c.toNat : ℤ) * r3.toNat ≡ 1 [ZMOD 2 ^ 32] := newtonStep_doubles c r2 16 (by decide) h16
  have h64 : (c.toNat : ℤ) * r4.toNat ≡ 1 [ZMOD 2 ^ 64] := newtonStep_doubles c r3 32 (by decide) h32
  have h128 : (c128.toNat : ℤ) * r5.toNat ≡ 1 [ZMOD 2 ^ 128] :=
    ((toNat_setWidth_modEq a 128).mul_right _).trans (hensel128_spec a hodd)
  have h256 : a * r6 = 1 := henselInverse_spec a hodd
  exact ⟨mul_mod_two_pow_eq_one (by decide) h4, mul_mod_two_pow_eq_one (by decide) h8,
    mul_mod_two_pow_eq_one (by decide) h16, mul_mod_two_pow_eq_one (by decide) h32,
    mul_mod_two_pow_eq_one (by decide) h64, mul_mod_two_pow_eq_one (by decide) h128,
    (mul_eq_one_iff_toNat a r6).mp h256, rfl⟩

/-- Settles O36: the second INV runs on the inverse, which is odd and has the first operand as its inverse. -/
theorem ringInverseInvolution : Obligations.RingInverseInvolution := by
  intro s h
  have hodd := (isOdd_eq_true_iff s.sa).mpr h
  exact ⟨_, _, exec_inv_odd hodd, exec_inv_odd (isOdd_henselInverse hodd), rfl, henselInverse_henselInverse hodd⟩

end Sys2Proof.Machine
end

section
/-! SUPPORT. The trajectory of the Euclid loop (spec 44_modular_inverse.md R159, R168): one iteration at a time, and how long it runs,
measured against the Fibonacci numbers (Lamé). -/

namespace Sys2Proof.Machine

/-! ### One iteration of the loop (R159) -/

theorem euclidLoop_of_r1_eq_zero {x : EuclidRun} (n : Nat) (h : x.regs.r1 = 0) : euclidLoop n x = x := by
  cases n with
  | zero => rfl
  | succ n => exact if_pos h

theorem euclidLoop_succ {x : EuclidRun} (n : Nat) (h : x.regs.r1 ≠ 0) : euclidLoop (n + 1) x = euclidLoop n (euclidStep x) :=
  if_neg h

/-- R158: the load keeps a value that is already below the modulus. -/
theorem euclidLoad_r1_of_lt (old : DivScratch) {a m : Word} (h : a.toNat < m.toNat) : (euclidLoad old a m).regs.r1 = a := by
  have hm : m ≠ 0 := by rintro rfl; exact absurd h (Nat.not_lt_zero _)
  obtain ⟨q, r, hres, -, hr⟩ := longDivide_getD old a m hm
  have hra : r = a := BitVec.eq_of_toNat_eq (hr.trans (Nat.mod_eq_of_lt h))
  simp [euclidLoad, hres, hra]

/-! ### Lamé's bound (R168) -/

/-- R168: a loop that has not ended after `n` iterations started from remainders no smaller than two consecutive Fibonacci numbers. -/
theorem fib_le_of_euclidLoop_r1_ne_zero {a m : Word} (n : Nat) :
    ∀ x : EuclidRun, EuclidInv a m x.regs → (euclidLoop n x).regs.r1 ≠ 0 →
      Nat.fib (n + 2) ≤ x.regs.r1.toNat ∧ Nat.fib (n + 3) ≤ x.regs.r0.toNat := by
  induction n with
  | zero =>
    intro x h hn
    have hpos : 0 < x.regs.r1.toNat := toNat_pos_of_ne_zero _ hn
    have hdec := h.dec
    exact ⟨hpos, show 2 ≤ _ by omega⟩
  | succ n ih =>
    intro x h hn
    have h1 : x.regs.r1 ≠ 0 := fun hz => hn (by rw [euclidLoop_of_r1_eq_zero _ hz, hz])
    rw [euclidLoop_succ n h1] at hn
    obtain ⟨hr0, hr1, -⟩ := euclidStep_spec a m x h h1
    obtain ⟨hfib1, hfib0⟩ := ih _ (euclidStep_inv a m x h h1) hn
    rw [hr1] at hfib1
    rw [hr0] at hfib0
    have hsum : x.regs.r0.toNat % x.regs.r1.toNat + x.regs.r1.toNat ≤ x.regs.r0.toNat := by
      rw [Nat.mod_eq_sub_mod h.dec.le]
      exact Nat.add_le_of_le_sub h.dec.le (Nat.mod_le _ _)
    exact ⟨hfib0, Nat.fib_add_two.trans_le ((Nat.add_le_add hfib1 hfib0).trans hsum)⟩

/-- R168: from consecutive Fibonacci numbers an iteration goes to the two before them, so `n` iterations do not end the loop. -/
theorem euclidLoop_r1_ne_zero_of_fib {a m : Word} (n : Nat) :
    ∀ x : EuclidRun, EuclidInv a m x.regs → x.regs.r1.toNat = Nat.fib (n + 2) → x.regs.r0.toNat = Nat.fib (n + 3) →
      (euclidLoop n x).regs.r1 ≠ 0 := by
  have hne : ∀ {y : Word} {k : Nat}, y.toNat = Nat.fib (k + 2) → y ≠ 0 := by
    rintro y k hy rfl
    exact absurd hy (Nat.fib_pos.mpr (k + 1).succ_pos).ne
  induction n with
  | zero => exact fun x _ h1 _ => hne h1
  | succ n ih =>
    intro x h h1 h0
    have hx := hne h1
    obtain ⟨hr0, hr1, -⟩ := euclidStep_spec a m x h hx
    rw [euclidLoop_succ n hx]
    refine ih _ (euclidStep_inv a m x h hx) ?_ (by rw [hr0, h1])
    rw [hr1, h1, h0, Nat.fib_add_two, Nat.add_mod_right, Nat.mod_eq_of_lt (Nat.fib_lt_fib_succ (by omega))]

/-- R168: 368 iterations are enough, for the Fibonacci number that 369 need is above every 256-bit modulus. -/
theorem euclidLoop_ended {a m : Word} {x : EuclidRun} (h : EuclidInv a m x.regs) : (euclidLoop 368 x).regs.r1 = 0 := by
  by_contra hn
  obtain ⟨-, hfib⟩ := fib_le_of_euclidLoop_r1_ne_zero 368 x h hn
  have hbig : 2 ^ 256 < Nat.fib 371 := by norm_num
  exact absurd (hbig.trans_le hfib) (Nat.not_lt.mpr x.regs.r0.isLt.le)

end Sys2Proof.Machine
end

section
/-! SUPPORT. Inverses modulo a modulus as congruences (spec 44_modular_inverse.md R156, R165), and the two ways INVMOD ends for a non-zero
modulus. -/

namespace Sys2Proof.Machine

/-- R156: the rule's integer form of an inverse, as a congruence. -/
theorem mul_sub_one_emod_eq_zero_iff (a x m : Nat) : ((a : ℤ) * x - 1) % m = 0 ↔ a * x ≡ 1 [MOD m] := by
  rw [← Int.natCast_modEq_iff, Int.modEq_comm, Int.modEq_iff_dvd, Int.dvd_iff_emod_eq_zero]
  push_cast
  rfl

/-- R165 (c): on exit with gcd 1 the coefficient of `a` is an inverse, and so is what it is reduced to. -/
theorem EuclidInv.mul_coefficient_modEq {a m : Word} {e : Euclid} (h : EuclidInv a m e) (hz : e.r1 = 0)
    (hg : Nat.gcd a.toNat m.toNat = 1) {x : Nat} (hx : (x : ℤ) = euclidSign e.kOdd * e.t0.toNat % m.toNat) :
    a.toNat * x ≡ 1 [MOD m.toNat] := by
  have hbez := h.bez0_modEq
  rw [h.r0_eq_gcd hz, hg] at hbez
  rw [← Int.natCast_modEq_iff, Nat.cast_mul, hx, mul_comm]
  exact ((Int.mod_modEq _ _).mul_right _).trans hbez.symm

/-- R160, R161: INVMOD with a modulus that is not coprime to the value has no result. -/
theorem exec_invmod_not_coprime {s : State} (hb : s.sb ≠ 0) (hg : Nat.gcd s.sa.toNat s.sb.toNat ≠ 1) :
    ∃ w e, exec .invmod s = .next (resultNone .noInverseExists { s with scratch := w, euclid := e }) := by
  have hspec := euclidFixup_spec s.scratch s.sa s.sb hb
  rw [if_neg hg] at hspec
  exact ⟨_, _, exec_invmod_none hb hspec⟩

/-- R156: INVMOD with a modulus coprime to the value gives the inverse below the modulus. -/
theorem exec_invmod_coprime {s : State} (hb : s.sb ≠ 0) (hg : Nat.gcd s.sa.toNat s.sb.toNat = 1) :
    ∃ (x : Word) (w : DivScratch) (e : Euclid), x.toNat < s.sb.toNat ∧ s.sa.toNat * x.toNat ≡ 1 [MOD s.sb.toNat] ∧
      exec .invmod s = .next (resultPresent { s with scratch := w, euclid := e, q := x }) := by
  have hspec := euclidFixup_spec s.scratch s.sa s.sb hb
  rw [if_pos hg] at hspec
  obtain ⟨x, hx, hlt, hmul⟩ := hspec
  exact ⟨x, _, _, hlt, hmul, exec_invmod_some hb hx⟩

/-- R166: the ring inverse modulo `2^256` is an inverse modulo every smaller power of two. -/
theorem mul_henselInverse_modEq {a : Word} (ha : isOdd a = true) {k : Nat} (hk : k ≤ 256) :
    a.toNat * (henselInverse a).toNat ≡ 1 [MOD 2 ^ k] := by
  have h256 : a.toNat * (henselInverse a).toNat ≡ 1 [MOD 2 ^ 256] := (mul_eq_one_iff_toNat _ _).mp (henselInverse_spec a ha)
  exact h256.of_dvd (pow_dvd_pow 2 hk)

end Sys2Proof.Machine
end

section
/-! The statements of 44_modular_inverse.md, settled. -/

namespace Sys2Proof.Machine

/-- Settles O37: the zero test, and the pipeline's result as the gcd decides it. -/
theorem modularInverseResult : Obligations.ModularInverseResult := by
  intro s
  refine ⟨exec_invmod_zero, exec_invmod_not_coprime, fun hb hg => ?_⟩
  obtain ⟨x, w, e, hlt, hmul, hexec⟩ := exec_invmod_coprime hb hg
  refine ⟨x, w, e, hlt, (mul_sub_one_emod_eq_zero_iff _ _ _).mpr hmul, fun y hy hinv => ?_, hexec⟩
  have hmuly := (mul_sub_one_emod_eq_zero_iff _ _ _).mp hinv
  exact BitVec.eq_of_toNat_eq (modularInverse_unique _ _ _ _ hy hlt hmuly hmul)

/-- Settles O38: the loop keeps the invariant, under which an iteration's multiply-add is the integer one and at most the modulus. -/
theorem euclidCofactorsDoNotWrap : Obligations.EuclidCofactorsDoNotWrap := by
  intro old a m k hm x h1
  have hinv : EuclidInv a m x.regs := euclidLoop_inv a m k _ (euclidLoad_inv old a m hm)
  obtain ⟨-, -, -, ht1, hle, -⟩ := euclidStep_spec a m x hinv h1
  exact ⟨ht1 ▸ hle, ht1⟩

/-- Settles O39, by Lamé's bound; the rule's pair is the Fibonacci numbers 369 and 370. -/
theorem euclidLoopStepBound : Obligations.EuclidLoopStepBound := by
  refine ⟨fun old a m hm => ?_, fun old => ?_⟩
  · have hload := euclidLoad_inv old a m hm
    have hend := euclidLoop_ended hload
    exact ⟨hend, (euclidLoop_inv a m 368 _ hload).r0_eq_gcd hend⟩
  · have hfib369 : Nat.fib 369 = 0x814675988eb7041005ee9f4355a59a00629b7c0123408b65d25f59ec1a328e62 := by norm_num
    have hfib370 : Nat.fib 370 = 0xd12bf5c7f45a49f54fdf4e79a339eb28e1cc739052cbfa4bcc70eb22d7c28187 := by norm_num
    refine euclidLoop_r1_ne_zero_of_fib 367 _ (euclidLoad_inv old _ _ (by decide)) ?_ hfib370.symm
    rw [euclidLoad_r1_of_lt old (by decide)]
    exact hfib369.symm

/-- Settles O40: both results are inverses modulo `2^k`, and there is only one below it. -/
theorem powerOfTwoModulus : Obligations.PowerOfTwoModulus := by
  intro s k hk hsb hsa
  have hodd := (isOdd_eq_true_iff s.sa).mpr hsa
  have hpos : 0 < 2 ^ k := by positivity
  have hb : s.sb ≠ 0 := by
    intro h0
    rw [h0] at hsb
    exact hpos.ne hsb
  have hg : Nat.gcd s.sa.toNat s.sb.toNat = 1 := by
    rw [hsb]
    exact Nat.Coprime.pow_right k (Nat.coprime_two_right.mpr (Nat.odd_iff.mpr hsa))
  obtain ⟨x, w, e, hlt, hmul, hexec⟩ := exec_invmod_coprime hb hg
  rw [hsb] at hlt hmul
  have hmulInv : s.sa.toNat * ((henselInverse s.sa).toNat % 2 ^ k) ≡ 1 [MOD 2 ^ k] :=
    ((Nat.mod_modEq _ _).mul_left _).trans (mul_henselInverse_modEq hodd hk.le)
  exact ⟨_, _, hexec, exec_inv_odd hodd, rfl, rfl, modularInverse_unique _ _ _ _ hlt (Nat.mod_lt _ hpos) hmul hmulInv⟩

/-- Settles O54: the invariant holds at the load and is kept, and on exit its congruence makes the fix-up's value an inverse. -/
theorem euclidLoopInvariant : Obligations.EuclidLoopInvariant := by
  intro a m hm
  refine ⟨⟨?_, fun x => ?_⟩, fun old => euclidLoad_inv old a m hm, euclidStep_inv a m, fun e h hz => ?_,
    modularInverse_unique a.toNat m.toNat⟩
  · rw [← Nat.gcd_rec, Nat.gcd_comm]
  · rw [Nat.mod_mul_mod]
  · refine ⟨h.r0_eq_gcd hz, euclidFixup_none h hz, fun hg => ?_⟩
    obtain ⟨x, hfix, hval⟩ := euclidFixup_some h hz hg
    exact ⟨x, hfix, hval, h.mul_coefficient_modEq hz hg hval⟩

end Sys2Proof.Machine
end

section
/-! SUPPORT. The two ends of an operator command in a busy state, with all four fields of STATUS written out (spec 45_operator_glue.md
R175 to R181; 60_exceptions.md R200), and the remainder of a remainder (R183). -/

namespace Sys2Proof.Machine

/-- R44 (b): a command in flight means that no abort is recorded. -/
theorem abort_of_busy {s : State} (hs : s.StatusInv) (hb : s.status.busy = true) : s.status.abort = false := by
  obtain ⟨-, hbusy, -⟩ := hs
  obtain ⟨-, -, habort⟩ := hbusy hb
  exact habort

/-- R181: where no abort is recorded, the end with a result leaves ABORT at 0, though it does not write it (log 12). -/
theorem resultPresent_of_noAbort {s : State} (ha : s.status.abort = false) :
    resultPresent s = { s with status := { busy := false, valid := true, err := .none, abort := false } } := by
  rw [resultPresent, Status.present, ha]

theorem exec_operator_abort {i : Instr} {s : State} (hi : i = .div ∨ i = .rem ∨ i = .diva ∨ i = .rema) (h : s.sb = 0) :
    ∃ w : DivScratch, exec i s = .next { s with
      scratch := w, status := { busy := false, valid := false, err := .divisionByZero, abort := true } } :=
  ⟨_, exec_operator_zero hi h⟩

/-- R181: the end with a result, in a state `u` whose registers are written and whose STATUS is still that of the busy unit `s`. -/
theorem next_resultPresent_of_busy {s u : State} (hs : s.StatusInv) (hb : s.status.busy = true) (hu : u.status = s.status) :
    (.next (resultPresent u) : Host.Outcome State Fault Refusal) =
      .next { u with status := { busy := false, valid := true, err := .none, abort := false } } := by
  rw [resultPresent_of_noAbort (by rw [hu, abort_of_busy hs hb])]

theorem remainder_remainder (x y : Word) : remainder (remainder x y) y = remainder x y := by
  rw [remainder, remainder, ofNat_mod_toNat, Nat.mod_mod]

end Sys2Proof.Machine
end

section
/-! The statements of 45_operator_glue.md, settled. -/

namespace Sys2Proof.Machine

/-- Settles O41: the quotient of the shared division goes to `Q`, and a busy unit has ABORT = 0. -/
theorem divResult : Obligations.DivResult :=
  fun s hs hb => ⟨exec_operator_abort (.inl rfl),
    fun h => ⟨_, _, ofNat_div_toNat s.sa s.sb, (exec_div_nonzero h).trans (next_resultPresent_of_busy hs hb rfl)⟩⟩

/-- Settles O42: the remainder of the shared division goes to `R`, and a busy unit has ABORT = 0. -/
theorem remResult : Obligations.RemResult :=
  fun s hs hb => ⟨exec_operator_abort (.inr (.inl rfl)),
    fun h => ⟨_, _, ofNat_mod_toNat s.sa s.sb, (exec_rem_nonzero h).trans (next_resultPresent_of_busy hs hb rfl)⟩⟩

/-- Settles O43: the quotient of the shared division goes to the receiver `A`, which the abort leaves as it was. -/
theorem divaResult : Obligations.DivaResult :=
  fun s hs hb => ⟨exec_operator_abort (.inr (.inr (.inl rfl))),
    fun h => ⟨_, _, ofNat_div_toNat s.sa s.sb, (exec_diva_nonzero h).trans (next_resultPresent_of_busy hs hb rfl)⟩⟩

/-- Settles O44: the remainder of the shared division goes to the receiver `A`, which the abort leaves as it was. -/
theorem remaResult : Obligations.RemaResult :=
  fun s hs hb => ⟨exec_operator_abort (.inr (.inr (.inr rfl))),
    fun h => ⟨_, _, ofNat_mod_toNat s.sa s.sb, (exec_rema_nonzero h).trans (next_resultPresent_of_busy hs hb rfl)⟩⟩

/-- Settles O46: the second issue snapshots the first remainder and the same divisor, and a remainder is its own remainder. -/
theorem remaIdempotent : Obligations.RemaIdempotent := by
  intro s hsb hne
  refine ⟨_, _, exec_rema_nonzero hne, exec_rema_nonzero ?_, ?_, rfl⟩
  · change s.b ≠ 0
    exact hsb ▸ hne
  · change remainder (remainder s.sa s.sb) s.b = remainder s.sa s.sb
    rw [← hsb, remainder_remainder]

end Sys2Proof.Machine
end

section
/-! The statements of 60_exceptions.md, settled. -/

namespace Sys2Proof.Machine

/-- Settles O47: each cause ends its command in `resultNone`, before the datapath or after it has written hidden registers only. -/
theorem absentResults : Obligations.AbsentResults := by
  rintro i s e (⟨rfl, hd, rfl⟩ | ⟨rfl, hb, rfl⟩ | ⟨rfl, heven, rfl⟩ | ⟨rfl, hcause, rfl⟩)
  · exact ⟨_, exec_divrem64_zero hd, rfl⟩
  · exact ⟨_, exec_divrem256_zero hb, rfl⟩
  · exact ⟨_, exec_inv_even ((isOdd_eq_false_iff s.sa).mpr heven), rfl⟩
  · by_cases hb : s.sb = 0
    · exact ⟨_, exec_invmod_zero hb, rfl⟩
    · obtain ⟨w, r, hexec⟩ := exec_invmod_not_coprime hb (hcause.resolve_left hb)
      exact ⟨_, hexec, rfl⟩

/-- Settles O45: the four commands share the trap, which overwrites all four fields of STATUS. -/
theorem abortTrapEntry : Obligations.AbortTrapEntry := by
  intro i s hi hb
  obtain ⟨w, hexec⟩ := exec_operator_abort hi hb
  exact ⟨w, hexec, rfl⟩

/-- Settles O8: only the unit's turn could stop, and a completion always ends in a next state, as `step_statusStep` says of every step. -/
theorem everyStepHasNextState : Obligations.EveryStepHasNextState := by
  intro s
  obtain ⟨t, ht, -⟩ := step_statusStep s
  exact ⟨t, ht⟩

end Sys2Proof.Machine
end

section
/-! SUPPORT. Whole steps of an idle unit that serve the host's access, the CMD write of a command's own word or a read, and the run from
a command in flight to the read behind it (spec 70_reset_and_hazards.md R222, R225). -/

namespace Sys2Proof.Machine

theorem decode_encode (i : Instr) : decode (encode i) = .ok i := (decode_eq_ok_iff_encode (encode i) i).mpr rfl

/-- R40, R72: the CMD write of the word of `i` issues `i` on the operands as they stand. -/
theorem step_write_encode {s : State} {i : Instr} {rest : List HostMove} (ht : nextTurn s = .host)
    (hh : s.host = .write cmdAddr (encode i) :: rest) (hb : s.status.busy = false) (ha : s.status.abort = false) :
    step s = .next { dropTurn s with
      host := rest
      flight := { op := i, sa := s.a, sb := s.b, sd := s.d }
      status := { busy := true, valid := false, err := .none, abort := false } } := by
  rw [step_write_cmd ht hh hb ha, writeCommand_legal (decode_encode i), ← Status.issued_of_noAbort ha]
  rfl

/-- R55, R60: a read that is not held is answered with its slot. -/
theorem step_read {s : State} {addr : LimbAddr} {rest : List HostMove} (ht : nextTurn s = .host)
    (hh : s.host = .read addr :: rest) (hp : s.status.busy = false ∨ addr = statusAddr) :
    step s = .next { dropTurn s with host := rest, seen := readSlot s addr :: s.seen } := by
  rw [step_host ht, hostTurn_read (s := dropTurn s) hh hp]
  rfl

theorem nextTurn_unscheduled_idle {s : State} (ht : s.turns = []) (hb : s.status.busy = false) : nextTurn s = .host := by
  simp [nextTurn_unscheduled ht, hb]

/-- R225: a step that leaves a command in flight, no turn scheduled and a read pending: the next two are the command's completion and
the read. By the write table the completion ends idle and keeps the host's lists, so the read is the next move and is not held. -/
theorem run_issue_completion_read {s u : State} {addr : LimbAddr} {rest : List HostMove} (hs : step s = .next u) (ht : u.turns = [])
    (hb : u.status.busy = true) (hh : u.host = .read addr :: rest) :
    ∃ t, exec u.flight.op u = .next t ∧ core.run 3 s = .next { t with host := rest, seen := readSlot t addr :: u.seen } := by
  obtain ⟨t, hexec, hidle, ⟨-, hhost, hseen, hturns, -⟩, -⟩ := registerWriteTable u.flight.op u
  have htt : t.turns = [] := hturns.trans ht
  have hread := step_read (nextTurn_unscheduled_idle htt hidle) (hhost.trans hh) (.inl hidle)
  rw [dropTurn_unscheduled htt, hseen] at hread
  refine ⟨t, hexec, ?_⟩
  rw [run_step core hs, run_step core ((step_busy_unscheduled ht hb).trans hexec), core_run_one]
  exact hread

end Sys2Proof.Machine
end

section
/-! The statements of 70_reset_and_hazards.md, settled. -/

namespace Sys2Proof.Machine

/-- Settles O18: the CMD write issues, and from the issued state the completion and the read are the next two steps. -/
theorem readAfterCommandSeesResult : Obligations.ReadAfterCommandSeesResult := by
  intro s i addr rest hb ha ht hh
  have hissue := step_write_encode (nextTurn_unscheduled_idle ht hb) hh hb ha
  rw [dropTurn_unscheduled ht] at hissue
  obtain ⟨t, hexec, hrun⟩ := run_issue_completion_read hissue ht rfl rfl
  exact ⟨t, hexec, hrun⟩

/-- Settles O49: the reset leaves the unit idle and not aborted with the host's moves untouched, and there the pending access is served. -/
theorem asynchronousReset : Obligations.AsynchronousReset := by
  intro s ht
  exact ⟨_, step_reset ht, rfl, statusWord_reset, rfl, rfl, rfl, fun hturn =>
    ⟨fun addr rest hh => step_read hturn hh (.inl rfl), fun i rest hh => step_write_encode hturn hh rfl rfl⟩⟩

end Sys2Proof.Machine
end

section
/-! SUPPORT. Runs of an idle unit with no turn scheduled in which the host loads or reads one word limb by limb (spec 20_memory.md R52,
30_encoding.md R78). -/

namespace Sys2Proof.Machine

theorem slotAddr_a_toNat (i : Fin 4) : (slotAddr (.a i)).toNat = i := by
  revert i
  decide

theorem slotAddr_b_toNat (i : Fin 4) : (slotAddr (.b i)).toNat = 0x04 + i := by
  revert i
  decide

/-- R12, R56: once each of its four limbs has been written, a register holds the written value, whatever it held before. -/
theorem putLimb_all_limbs (w x : Word) :
    putLimb (putLimb (putLimb (putLimb w (0 : Fin 4) (limb x (0 : Fin 4))) (1 : Fin 4) (limb x (1 : Fin 4)))
      (2 : Fin 4) (limb x (2 : Fin 4))) (3 : Fin 4) (limb x (3 : Fin 4)) = x := by
  refine word_ext_limbs fun i hi => ?_
  lift i to Fin 4 using hi
  simp only [limb_putLimb]
  split_ifs with h3 h2 h1 h0
  · rw [h3]
  · rw [h2]
  · rw [h1]
  · rw [h0]
  · omega

section
variable {s : State} (ht : s.turns = []) (hb : s.status.busy = false)
include ht hb

/-! With no turn scheduled (log 5) every step of an idle unit is the host's. -/

theorem step_write_unscheduled {addr : LimbAddr} {v : Limb} {rest : List HostMove} (ha : s.status.abort = false)
    (hh : s.host = .write addr v :: rest) : step s = .next { writeSlot s addr v with host := rest } := by
  rw [step_host (nextTurn_unscheduled_idle ht hb), dropTurn_unscheduled ht, hostTurn_write hh hb ha]

theorem step_read_unscheduled {addr : LimbAddr} {rest : List HostMove} (hh : s.host = .read addr :: rest) :
    step s = .next { s with host := rest, seen := readSlot s addr :: s.seen } := by
  rw [step_read (nextTurn_unscheduled_idle ht hb) hh (.inl hb), dropTurn_unscheduled ht]

theorem step_write_a (ha : s.status.abort = false) (w : Word) (i : Fin 4) (v : Limb) (rest : List HostMove) :
    step { s with a := w, host := wr (.a i) v :: rest } = .next { s with a := putLimb w i v, host := rest } := by
  rw [step_write_unscheduled (s := { s with a := w, host := wr (.a i) v :: rest }) ht hb ha rfl,
    writeSlot_a _ v (slotAddr_a_toNat i)]

theorem step_write_b (ha : s.status.abort = false) (w : Word) (i : Fin 4) (v : Limb) (rest : List HostMove) :
    step { s with b := w, host := wr (.b i) v :: rest } = .next { s with b := putLimb w i v, host := rest } := by
  rw [step_write_unscheduled (s := { s with b := w, host := wr (.b i) v :: rest }) ht hb ha rfl,
    writeSlot_b _ v (slotAddr_b_toNat i)]

theorem step_read_a (i : Fin 4) (rest : List HostMove) (l : List Limb) :
    step { s with host := rd (.a i) :: rest, seen := l } = .next { s with host := rest, seen := limb s.a i :: l } := by
  rw [step_read_unscheduled (s := { s with host := rd (.a i) :: rest, seen := l }) ht hb rfl,
    readSlot_a _ (slotAddr_a_toNat i)]

end

/-- R52, R78: `LDA` and `LDB` alike. `reg w h` is the machine with `w` in the loaded register and the moves `h` still to be made; where
the write of a limb is one step, the four writes in limb order load the whole value. -/
theorem run_loadWord {slot : Fin 4 → Slot} {reg : Word → List HostMove → State}
    (hstep : ∀ w i v rest, step (reg w (wr (slot i) v :: rest)) = .next (reg (putLimb w i v) rest))
    (k : Nat) (w x : Word) (rest : List HostMove) :
    core.run (k + 4) (reg w (wr (slot 0) (limb x 0) :: wr (slot 1) (limb x 1) :: wr (slot 2) (limb x 2) ::
      wr (slot 3) (limb x 3) :: rest)) = core.run k (reg x rest) := by
  rw [run_step core (hstep ..), run_step core (hstep ..), run_step core (hstep ..), run_step core (hstep ..)]
  exact congrArg (fun u => core.run k (reg u rest)) (putLimb_all_limbs w x)

theorem run_lda {s : State} (ht : s.turns = []) (hb : s.status.busy = false) (ha : s.status.abort = false) (k : Nat) (x : Word)
    (rest : List HostMove) :
    core.run (k + 4) { s with host := lda x ++ rest } = core.run k { s with a := x, host := rest } :=
  run_loadWord (slot := .a) (reg := fun w h => { s with a := w, host := h }) (step_write_a ht hb ha) k s.a x rest

theorem run_ldb {s : State} (ht : s.turns = []) (hb : s.status.busy = false) (ha : s.status.abort = false) (k : Nat) (y : Word)
    (rest : List HostMove) :
    core.run (k + 4) { s with host := ldb y ++ rest } = core.run k { s with b := y, host := rest } :=
  run_loadWord (slot := .b) (reg := fun w h => { s with b := w, host := h }) (step_write_b ht hb ha) k s.b y rest

/-- R78: `RDA`; the value read last is the newest one seen (log 6). -/
theorem run_rda {s : State} (ht : s.turns = []) (hb : s.status.busy = false) (k : Nat) (rest : List HostMove) :
    core.run (k + 4) { s with host := rda ++ rest } = core.run k { s with
      host := rest, seen := [limb s.a 3, limb s.a 2, limb s.a 1, limb s.a 0] ++ s.seen } :=
  (run_step core (step_read_a ht hb 0 ..)).trans ((run_step core (step_read_a ht hb 1 ..)).trans
    ((run_step core (step_read_a ht hb 2 ..)).trans (run_step core (step_read_a ht hb 3 ..))))

end Sys2Proof.Machine
end

section
/-! SUPPORT. The wait for the unit's turn: what the host can do while a command is in flight (spec 20_memory.md R60, 10_state.md R45,
70_reset_and_hazards.md R231). -/

namespace Sys2Proof.Machine

/-- R45, log 5: the head of the schedule moves. -/
theorem nextTurn_scheduled {s : State} {t : Turn} {ts : List Turn} (h : s.turns = t :: ts) : nextTurn s = t := by
  simp only [nextTurn, h]

/-- R60, R78: while a command is in flight the host's turn reaches its own two lists only, unless it is at a RESET line; and it brings
no RESET line in. -/
theorem hostTurn_busy {s : State} (hb : s.status.busy = true) (hr : HostMove.reset ∉ s.host) :
    ∃ h l, HostMove.reset ∉ h ∧ hostTurn s = { s with host := h, seen := l } := by
  cases hh : s.host with
  | nil => exact ⟨s.host, s.seen, hr, hostTurn_done hh⟩
  | cons m rest =>
    have hrest : HostMove.reset ∉ rest := fun hm => hr (hh ▸ List.mem_cons_of_mem m hm)
    cases m with
    | read addr =>
      by_cases ha : addr = statusAddr
      · exact ⟨rest, _, hrest, hostTurn_read hh (.inr ha)⟩
      · exact ⟨s.host, s.seen, hr, hostTurn_read_held hh hb ha⟩
    | write addr v => exact ⟨s.host, s.seen, hr, hostTurn_write_held hh hb⟩
    | wait => exact ⟨s.host, _, hr, by rw [hostTurn_wait hh, if_pos hb]⟩
    | reset => exact absurd (hh ▸ List.mem_cons_self) hr

/-- R40, R231: a unit's turn reached with a command in flight is that command's completion. -/
theorem step_completes {s : State} (ht : nextTurn s = .unit) (hb : s.status.busy = true) :
    ∃ t, step s = exec s.flight.op (dropTurn s) ∧ step s = .next t ∧ t.status.busy = false := by
  obtain ⟨t, hexec, hidle⟩ := exec_idle s.flight.op (dropTurn s)
  exact ⟨t, step_unit_busy ht hb, (step_unit_busy ht hb).trans hexec, hidle⟩

/-- R45, R231: by the end of the schedule at the latest it is the unit's turn, and up to there the host alone has moved. -/
theorem run_reaches_unitTurn (ts : List Turn) : ∀ s : State, s.turns = ts → s.status.busy = true → Turn.reset ∉ ts →
    HostMove.reset ∉ s.host → ∃ k ≤ ts.length, ∃ h l ts',
      core.run k s = .next { s with host := h, seen := l, turns := ts' } ∧
      nextTurn { s with host := h, seen := l, turns := ts' } = .unit := by
  induction ts with
  | nil =>
    intro s ht hb _ _
    exact ⟨0, le_rfl, s.host, s.seen, s.turns, rfl, (nextTurn_unscheduled ht).trans (if_pos hb)⟩
  | cons t ts ih =>
    intro s ht hb hts hr
    have hturn : nextTurn s = t := nextTurn_scheduled ht
    cases t with
    | host =>
      obtain ⟨h, l, hh, hmove⟩ := hostTurn_busy (s := dropTurn s) hb hr
      obtain ⟨k, hk, h', l', ts', hrun, hunit⟩ := ih { dropTurn s with host := h, seen := l } (congrArg List.tail ht) hb
        (fun hm => hts (List.mem_cons_of_mem _ hm)) hh
      exact ⟨k + 1, Nat.succ_le_succ hk, h', l', ts',
        (run_step core ((step_host hturn).trans (congrArg _ hmove))).trans hrun, hunit⟩
    | unit => exact ⟨0, Nat.zero_le _, s.host, s.seen, s.turns, rfl, hturn⟩
    | reset => exact absurd List.mem_cons_self hts

end Sys2Proof.Machine
end

section
/-! The remaining statements of 20_memory.md, 30_encoding.md and 70_reset_and_hazards.md, settled. -/

namespace Sys2Proof.Machine

/-- Settles O14: the writes in limb order load `A`, then `B`, and the reads answer the limbs of `A`. -/
theorem loadAndReadBackWord : Obligations.LoadAndReadBackWord := by
  intro s x y rest hb ha ht hh
  have hload : ∀ k, core.run (k + 8) s = core.run k { s with a := x, b := y, host := rda ++ rest } := fun k =>
    calc core.run (k + 8) s
      _ = core.run (k + 8) { s with host := lda x ++ (ldb y ++ (rda ++ rest)) } := by
        rw [← List.append_assoc, ← List.append_assoc, ← hh]
      _ = core.run (k + 4) { s with a := x, host := ldb y ++ (rda ++ rest) } := run_lda ht hb ha (k + 4) x _
      _ = core.run k { s with a := x, b := y, host := rda ++ rest } := run_ldb (s := { s with a := x }) ht hb ha k y _
  exact ⟨hload 0, (hload 4).trans (run_rda (s := { s with a := x, b := y }) ht hb 0 rest)⟩

/-- Settles O15: WAIT is read STATUS, and BUSY decides whether it stays. -/
theorem waitPollsStatus : Obligations.WaitPollsStatus := by
  intro s rest ht hh
  rw [step_host ht, hostTurn_wait (s := dropTurn s) hh]
  refine ⟨fun hb => ?_, fun hb => ?_⟩ <;> rw [dropTurn_status, hb] <;> rfl

/-- Settles O19: the host's turns of the schedule pass without touching the unit, and the unit's turn then completes the command. -/
theorem everyCommandCompletes : Obligations.EveryCommandCompletes := by
  intro s hb hts hr
  obtain ⟨k, hk, h, l, ts', hrun, hunit⟩ := run_reaches_unitTurn s.turns s rfl hb hts hr
  obtain ⟨t, hexec, hnext, hidle⟩ := step_completes hunit hb
  exact ⟨k, _, t, hk, hrun, rfl, rfl, ⟨rfl, rfl, rfl, rfl, rfl⟩, hexec, hnext, hidle⟩

end Sys2Proof.Machine
end
